-- ==== Sys2Proof/Word.lean ====
section
/-! DEFINITION. The word types of the block: bytes, the 32-bit command word, the 16-bit wire frame. -/

namespace Sys2Proof

/-- An 8-bit register address or an 8-bit value (R30, R51). -/
abbrev Byte := BitVec 8

/-- A command word, the encoding `CMD32` (R53). -/
abbrev CmdWord := BitVec 32

/-- A wire frame, the encoding `FRAME16` (R51): address in bits 15:8, value in bits 7:0. -/
abbrev FrameWord := BitVec 16

end Sys2Proof
end

