-- ==== Sys2Proof/Config.lean ====
section
/-! DEFINITION. The implementation parameters of R4: their types, their constraints, the defaults the spec
gives, and free values (constants with no body) where it gives none. -/

namespace Sys2Proof

/-- The two variants of the block (R2). -/
inductive Variant where
  | plain
  | translating
  deriving DecidableEq, Repr

/-- The addresses of the five configuration registers (R5, R32). -/
structure AddrMap where
  decodeMode  : Byte
  intensity   : Byte
  scanLimit   : Byte
  shutdown    : Byte
  displayTest : Byte
  deriving DecidableEq, Repr

/-- The addresses 1 to 8 of the digit registers (R31). -/
def isDigitAddr (a : Byte) : Bool :=
  decide (1 ≤ a.toNat ∧ a.toNat ≤ 8)

/-- The five addresses in the order R5 names them. -/
def AddrMap.all (m : AddrMap) : List Byte :=
  [m.decodeMode, m.intensity, m.scanLimit, m.shutdown, m.displayTest]

/-- R5: the five addresses are pairwise distinct and none of them lies in 1..8. -/
def AddrMap.wf (m : AddrMap) : Bool :=
  decide (m.all.Nodup) && m.all.all (fun a => !isDigitAddr a)

/-- The parameters of one block (R4), fixed for its life. Pin identifiers are opaque numbers that no rule
computes with (R11). The field width `W_A = 16` stands in the type of the command word's `A` field. -/
structure Params where
  variant            : Variant
  tSettle            : Nat
  addrs              : AddrMap
  versionPlain       : Int
  versionTranslating : Int
  pinData            : Nat
  pinClk             : Nat
  pinLoad            : Nat
  deriving DecidableEq, Repr

/-- The three pins are distinct physical outputs (R11, D27). -/
def Params.pinsDistinct (p : Params) : Bool :=
  decide (p.pinData ≠ p.pinClk ∧ p.pinData ≠ p.pinLoad ∧ p.pinClk ≠ p.pinLoad)

/-- The constraints the spec puts on the parameters: `T_SETTLE_US ≥ 5` (R4, R6), R5, the two version numbers
differ (R89), the pins are distinct (R11). -/
def Params.wf (p : Params) : Bool :=
  decide (5 ≤ p.tSettle) && p.addrs.wf && decide (p.versionPlain ≠ p.versionTranslating) && p.pinsDistinct

namespace Config

/-- The default addresses of R4. PRESUMED, as the spec itself marks them: general knowledge of the MAX7219 (G1).
Log entry 4. -/
def addrs : AddrMap :=
  { decodeMode := 0x09#8, intensity := 0x0A#8, scanLimit := 0x0B#8, shutdown := 0x0C#8, displayTest := 0x0F#8 }

/-- The default settling delay of R4, in microseconds (D17). Log entry 5. -/
def tSettle : Nat := 5

/-- Free value: whether the block that `State.reset` describes is the translating one. The spec gives no default
(R4). Log entry 3. -/
opaque translating : Bool

/-- Free value: `VERSION_PLAIN`, which the spec leaves open (R4, D16). Log entry 6. -/
opaque versionPlain : Int

/-- Free value from which `VERSION_TRANSLATING` is made. Log entry 6. -/
opaque versionOther : Int

/-- Free values from which the three pin identifiers are made (R4: wiring). Log entry 7. -/
opaque wireA : Nat
opaque wireB : Nat
opaque wireC : Nat

/-- Any integer but `VERSION_PLAIN`: the one constraint of R4. -/
def versionTranslating : Int :=
  if versionOther = versionPlain then versionPlain + 1 else versionOther

/-- Any identifier but `PIN_DATA`'s (D27). -/
def pinClk : Nat :=
  if wireB = wireA then wireA + 1 else wireB

/-- Any identifier but the other two (D27). -/
def pinLoad : Nat :=
  if wireC = wireA ∨ wireC = pinClk then wireA + pinClk + 1 else wireC

/-- The parameters of the block that `State.reset` describes. -/
def params : Params :=
  { variant := if translating then .translating else .plain
    tSettle := tSettle
    addrs := addrs
    versionPlain := versionPlain
    versionTranslating := versionTranslating
    pinData := wireA
    pinClk := pinClk
    pinLoad := pinLoad }

end Config

end Sys2Proof
end

