-- ==== Sys2Proof/Syntax.lean ====
section
/-! DEFINITION. The instructions: one constructor per row of spec/opcode_table.json, nine commands in the
abstract form of R54 and fourteen wire frames (R51, R52). -/

namespace Sys2Proof

/-- The nine commands take mathematical integers, as the rules of files 40 to 43 do (R54, R55, D5). A wire frame's
operand has the width its row's encoding leaves free. -/
inductive Instr where
  /-- `INIT n` (R110): `n` the digit count. -/
  | init (n : Int)
  /-- `WRREG a, v` (R70): `a` the register address, `v` the value; wide operands are reduced mod 256 (R77). -/
  | wrreg (a v : Int)
  /-- `ENABLE f` (R85): `f` is true when it is not 0 (R55). -/
  | enable (f : Int)
  /-- `SETINT l` (R86): `l` the level. -/
  | setint (l : Int)
  /-- `TEST f` (R88): `f` is true when it is not 0 (R55). -/
  | test (f : Int)
  /-- `SETDIGIT w, v` (R98): `w` the digit index, `v` the content byte. -/
  | setdigit (w v : Int)
  /-- `SETROW w, v` (R99): `w` the row index, `v` the content byte. -/
  | setrow (w v : Int)
  /-- `CLEAR` (R100). -/
  | clear
  /-- `VERSION` (R89). -/
  | version
  /-- `FR.DIGIT0`: the frame for digit register 1 (R31, R52). -/
  | frDigit0 (v : Byte)
  /-- `FR.DIGIT1`: the frame for digit register 2 (R31, R52). -/
  | frDigit1 (v : Byte)
  /-- `FR.DIGIT2`: the frame for digit register 3 (R31, R52). -/
  | frDigit2 (v : Byte)
  /-- `FR.DIGIT3`: the frame for digit register 4 (R31, R52). -/
  | frDigit3 (v : Byte)
  /-- `FR.DIGIT4`: the frame for digit register 5 (R31, R52). -/
  | frDigit4 (v : Byte)
  /-- `FR.DIGIT5`: the frame for digit register 6 (R31, R52). -/
  | frDigit5 (v : Byte)
  /-- `FR.DIGIT6`: the frame for digit register 7 (R31, R52). -/
  | frDigit6 (v : Byte)
  /-- `FR.DIGIT7`: the frame for digit register 8 (R31, R52). -/
  | frDigit7 (v : Byte)
  /-- `FR.DECODE`: decode mode, value 0 only (R32, R52). -/
  | frDecode
  /-- `FR.INTENSITY`: value 0..15 (R32, R52). -/
  | frIntensity (v : BitVec 4)
  /-- `FR.SCANLIMIT`: the row's three free value bits (R32, R52; log entry 12 on the values 0..2). -/
  | frScanlimit (v : BitVec 3)
  /-- `FR.SHUTDOWN`: value 0 or 1 (R32, R52). -/
  | frShutdown (v : BitVec 1)
  /-- `FR.TEST`: value 0 or 1 (R32, R52). -/
  | frTest (v : BitVec 1)
  /-- `FR.RAW`: any address, any value; the general frame (R51, R52). -/
  | frRaw (a v : Byte)
  deriving DecidableEq, Repr

end Sys2Proof
end

