-- ==== Sys2Proof/WellFormed.lean ====
section
/-! DEFINITION. Well-formed instructions: those an encoding of the spec can carry as they stand. -/

namespace Sys2Proof

/-- The range of the 16-bit two's-complement field `A` (R53, R55). -/
def inFieldA (n : Int) : Bool :=
  decide (-32768 ≤ n ∧ n ≤ 32767)

/-- The range of a byte operand: field `B`, and `A[7:0]` for the address of `WRREG` (R55). -/
def inByte (n : Int) : Bool :=
  decide (0 ≤ n ∧ n ≤ 255)

/-- The frame of address `a` and value `v` is one of the thirteen named frames of R52 (by the value bits their
rows leave free), under the address map `m`. -/
def isNamedFrame (m : AddrMap) (a v : Byte) : Bool :=
  isDigitAddr a
    || (decide (a = m.decodeMode) && decide (v.toNat = 0))
    || (decide (a = m.intensity) && decide (v.toNat < 16))
    || (decide (a = m.scanLimit) && decide (v.toNat < 8))
    || (decide (a = m.shutdown) && decide (v.toNat < 2))
    || (decide (a = m.displayTest) && decide (v.toNat < 2))

/-- An instruction is well formed when its operands fit the fields of its row (R53 to R55), and a raw frame when no
named row stands for the same word (R52). The map `m` gives the configuration addresses (R5). -/
def Instr.wf (m : AddrMap) : Instr → Bool
  | .init n => inFieldA n
  | .wrreg a v => inByte a && inByte v
  | .enable f => inFieldA f
  | .setint l => inFieldA l
  | .test f => inFieldA f
  | .setdigit w v => inFieldA w && inByte v
  | .setrow w v => inFieldA w && inByte v
  | .clear => true
  | .version => true
  | .frDigit0 _ => true
  | .frDigit1 _ => true
  | .frDigit2 _ => true
  | .frDigit3 _ => true
  | .frDigit4 _ => true
  | .frDigit5 _ => true
  | .frDigit6 _ => true
  | .frDigit7 _ => true
  | .frDecode => true
  | .frIntensity _ => true
  | .frScanlimit _ => true
  | .frShutdown _ => true
  | .frTest _ => true
  | .frRaw a v => !isNamedFrame m a v

end Sys2Proof
end

