-- ==== Sys2Proof/Decode.lean ====
section
/-! DEFINITION. Decoding and encoding of command words (`CMD32`, R53 to R57) and wire frames (`FRAME16`, R51, R52). -/

namespace Sys2Proof

/-- An encoded instruction: a command word or a wire frame (R50). -/
inductive Code where
  | cmd32 (w : CmdWord)
  | frame16 (w : FrameWord)
  deriving DecidableEq, Repr

/-- Why a command word is no command (R56). -/
inductive Reject where
  /-- `OP` is 0000 or 1010 to 1111. -/
  | reservedOp
  /-- `Z` is not 0000. -/
  | reservedZ
  deriving DecidableEq, Repr

/-- Field `OP`, bits 31:28 (R53). -/
def fieldOp (w : CmdWord) : BitVec 4 := w.extractLsb' 28 4

/-- Field `Z`, bits 27:24 (R53). -/
def fieldZ (w : CmdWord) : BitVec 4 := w.extractLsb' 24 4

/-- Field `A`, bits 23:8 (R53). -/
def fieldA (w : CmdWord) : BitVec 16 := w.extractLsb' 8 16

/-- Field `B`, bits 7:0 (R53). -/
def fieldB (w : CmdWord) : Byte := w.extractLsb' 0 8

/-- An `A`-field operand: `sext_16(A)` (R55). -/
def operandA (w : CmdWord) : Int := (fieldA w).toInt

/-- A `B`-field operand: `zext_8(B)` (R55). -/
def operandB (w : CmdWord) : Int := ((fieldB w).toNat : Int)

/-- The address of `WRREG`: `A[7:0]` read unsigned (R55). -/
def operandAddress (w : CmdWord) : Int := (((fieldA w).extractLsb' 0 8).toNat : Int)

/-- The command a word stands for, or why it is reserved (R54 to R57). -/
def decodeCmd (w : CmdWord) : Except Reject Instr :=
  if fieldZ w ≠ 0#4 then .error .reservedZ
  else
    match (fieldOp w).toNat with
    | 1 => .ok (.init (operandA w))
    | 2 => .ok (.wrreg (operandAddress w) (operandB w))
    | 3 => .ok (.enable (operandA w))
    | 4 => .ok (.setint (operandA w))
    | 5 => .ok (.test (operandA w))
    | 6 => .ok (.setdigit (operandA w) (operandB w))
    | 7 => .ok (.setrow (operandA w) (operandB w))
    | 8 => .ok .clear
    | 9 => .ok .version
    | _ => .error .reservedOp

/-- The address byte of a frame, bits 15:8 (R51). -/
def frameAddress (w : FrameWord) : Byte := w.extractLsb' 8 8

/-- The value byte of a frame, bits 7:0 (R51). -/
def frameValue (w : FrameWord) : Byte := w.extractLsb' 0 8

/-- The frame of an address and a value that no digit row names: a configuration frame where a row of R52 fits, a
raw frame elsewhere. -/
def decodeConfigFrame (m : AddrMap) (a v : Byte) : Instr :=
  if a = m.decodeMode ∧ v.toNat = 0 then .frDecode
  else if a = m.intensity ∧ v.toNat < 16 then .frIntensity (v.setWidth 4)
  else if a = m.scanLimit ∧ v.toNat < 8 then .frScanlimit (v.setWidth 3)
  else if a = m.shutdown ∧ v.toNat < 2 then .frShutdown (v.setWidth 1)
  else if a = m.displayTest ∧ v.toNat < 2 then .frTest (v.setWidth 1)
  else .frRaw a v

/-- The frame row a frame word belongs to (R52): every word belongs to exactly one. -/
def decodeFrame (m : AddrMap) (w : FrameWord) : Instr :=
  match (frameAddress w).toNat with
  | 1 => .frDigit0 (frameValue w)
  | 2 => .frDigit1 (frameValue w)
  | 3 => .frDigit2 (frameValue w)
  | 4 => .frDigit3 (frameValue w)
  | 5 => .frDigit4 (frameValue w)
  | 6 => .frDigit5 (frameValue w)
  | 7 => .frDigit6 (frameValue w)
  | 8 => .frDigit7 (frameValue w)
  | _ => decodeConfigFrame m (frameAddress w) (frameValue w)

/-- The decoder, total on every word of either length. The map `m` gives the configuration addresses (R5), on which
only frames depend (R59: nothing else changes decoding). -/
def decode (m : AddrMap) : Code → Except Reject Instr
  | .cmd32 w => decodeCmd w
  | .frame16 w => .ok (decodeFrame m w)

/-- A command word of its four fields, `Z` zero (R53). -/
def cmdWord (op : BitVec 4) (a : BitVec 16) (b : Byte) : CmdWord :=
  op ++ 0#4 ++ a ++ b

/-- A frame of its two bytes (R51). -/
def frameWord (a v : Byte) : FrameWord := a ++ v

/-- An integer operand in the 16-bit field `A`, two's complement (R53). -/
def toFieldA (n : Int) : BitVec 16 := BitVec.ofInt 16 n

/-- An integer operand as a byte: reduction mod 256 (R77, D5). -/
def toByte (n : Int) : Byte := BitVec.ofInt 8 n

/-- The encoder (R53, R54, R51, R52); ignored bits are 0, as in V-ENC-1. -/
def encode (m : AddrMap) : Instr → Code
  | .init n => .cmd32 (cmdWord 1#4 (toFieldA n) 0#8)
  | .wrreg a v => .cmd32 (cmdWord 2#4 (0#8 ++ toByte a) (toByte v))
  | .enable f => .cmd32 (cmdWord 3#4 (toFieldA f) 0#8)
  | .setint l => .cmd32 (cmdWord 4#4 (toFieldA l) 0#8)
  | .test f => .cmd32 (cmdWord 5#4 (toFieldA f) 0#8)
  | .setdigit w v => .cmd32 (cmdWord 6#4 (toFieldA w) (toByte v))
  | .setrow w v => .cmd32 (cmdWord 7#4 (toFieldA w) (toByte v))
  | .clear => .cmd32 (cmdWord 8#4 0#16 0#8)
  | .version => .cmd32 (cmdWord 9#4 0#16 0#8)
  | .frDigit0 v => .frame16 (frameWord 1#8 v)
  | .frDigit1 v => .frame16 (frameWord 2#8 v)
  | .frDigit2 v => .frame16 (frameWord 3#8 v)
  | .frDigit3 v => .frame16 (frameWord 4#8 v)
  | .frDigit4 v => .frame16 (frameWord 5#8 v)
  | .frDigit5 v => .frame16 (frameWord 6#8 v)
  | .frDigit6 v => .frame16 (frameWord 7#8 v)
  | .frDigit7 v => .frame16 (frameWord 8#8 v)
  | .frDecode => .frame16 (frameWord m.decodeMode 0#8)
  | .frIntensity v => .frame16 (frameWord m.intensity (v.setWidth 8))
  | .frScanlimit v => .frame16 (frameWord m.scanLimit (v.setWidth 8))
  | .frShutdown v => .frame16 (frameWord m.shutdown (v.setWidth 8))
  | .frTest v => .frame16 (frameWord m.displayTest (v.setWidth 8))
  | .frRaw a v => .frame16 (frameWord a v)

/-- A word of the opcode table as a code: 32 bits make a command word, 16 bits a frame (R59); no other length
exists. -/
def tableCode (nbits w : Nat) : Option Code :=
  if nbits = 32 then some (.cmd32 (BitVec.ofNat 32 w))
  else if nbits = 16 then some (.frame16 (BitVec.ofNat 16 w))
  else none

/-- The instruction the decoder reads from a word of the opcode table, under the default addresses, which are the
ones the table is written with. -/
def decodeTableWord (nbits w : Nat) : Option Instr :=
  match tableCode nbits w with
  | none => none
  | some c => (decode Config.addrs c).toOption

end Sys2Proof
end

