-- ==== Sys2Proof/Machine/State.lean ====
section
/-! DEFINITION. The state of the block (R10), its reset value (R25, R140), and the reasons a step can stop. -/

namespace Sys2Proof.Machine

/-- The three pins (R10, R11). -/
inductive Pin where
  | data
  | clk
  | load
  deriving DecidableEq, Repr

/-- The direction of a pin: `in` (not driven) or `out` (R14). -/
inductive Dir where
  | input
  | output
  deriving DecidableEq, Repr

/-- One thing for each of the three pins. -/
structure Pins (α : Type) where
  data : α
  clk  : α
  load : α
  deriving DecidableEq, Repr

/-- What stands at a pin. -/
def Pins.get {α : Type} (f : Pins α) : Pin → α
  | .data => f.data
  | .clk => f.clk
  | .load => f.load

/-- The same three things but for one pin. -/
def Pins.set {α : Type} (f : Pins α) : Pin → α → Pins α
  | .data, x => { f with data := x }
  | .clk, x => { f with clk := x }
  | .load, x => { f with load := x }

/-- The events of a trace (section 5 of 00_scope.md): `OE(p)`, `W(p, b)`, `D(t)`. Level `true` is high. -/
inductive Event where
  | oe (p : Pin)
  | w (p : Pin) (b : Bool)
  | d (us : Nat)
  deriving DecidableEq, Repr

/-- The state updates a command's rule computes beside its events (R16): `DIGIT_COUNT <- n` (R110),
`INITIALISED <- 1` (R110), `RESULT <- v` (R89). -/
inductive Update where
  | digitCount (n : Int)
  | initialised
  | result (v : Int)
  deriving DecidableEq, Repr

/-- One entry of a command's list of events and state updates (R16). -/
inductive Action where
  | event (e : Event)
  | update (u : Update)
  deriving DecidableEq, Repr

/-- What the host does at the command port (R9, R18): it hands over an encoded command (R53) or frame, calls a
command in its abstract form (R54), or the block is powered on again between two commands (R140). -/
inductive PortItem where
  | code (c : Code)
  | call (i : Instr)
  | powerOn
  deriving DecidableEq, Repr

/-- The state of the block: the elements of R10, each under its own name. `READY` is derived (R18,
`State.ready`). The field `port` is the model's own: what the host will do at the command port, in order, each
item when the block is ready for it (log entry 9). -/
structure State where
  /-- The parameters, pin identifiers among them; no step changes them (R4, R11, R25). -/
  params      : Params
  /-- `DIGIT_COUNT` (R12); `none` is the "holding no value" of R25. -/
  digitCount  : Option Int
  /-- `INITIALISED` (R13). -/
  initialised : Bool
  /-- `DIR[p]` (R14). -/
  dir         : Pins Dir
  /-- `PIN[p]`, the output latches (R15). -/
  pin         : Pins Bool
  /-- `PENDING` (R16). -/
  pending     : List Action
  /-- `RESULT` (R17); `none` is the "holding no value" of R25. -/
  result      : Option Int
  /-- `TRACE`, oldest event first (R20). -/
  trace       : List Event
  /-- What the host does next at the command port (the model's own field). -/
  port        : List PortItem
  deriving DecidableEq, Repr

/-- The reasons a step ends in a fault: none. "No error type exists" (R120): the set of synchronous exceptions is
empty, and U-list treatments never use `fault`. -/
inductive Fault where
  deriving DecidableEq, Repr

/-- The reasons a step, a launch, a reset or a read of the result port has no meaning. -/
inductive Refusal where
  /-- Raised by an arm of `exec` that has no meaning yet: none is left. Safe. -/
  | notModelled (mnemonic : String)
  /-- Raised by every command but `INIT` and `VERSION`, and by a frame, while `INITIALISED = 0` (R144, U2). Safe. -/
  | notInitialised
  /-- Raised by `SETDIGIT` and `SETROW` in a state that is initialised and holds no `DIGIT_COUNT`: "reading it
  is a refusal, never a zero" (R25). No run reaches such a state (R12, `idle_ne_digitCountUnspecified`). Safe. -/
  | digitCountUnspecified
  /-- Raised by a command handed over while another is being performed, which the port never does (R18). Safe. -/
  | notReady
  /-- Raised by the host's read of `RESULT` before any `VERSION`: "reading it is a refusal, never a zero"
  (R25). No step and no instruction raises it (`exec_ne_resultUnspecified`). Safe. -/
  | resultUnspecified
  /-- Raised by a power-on reset while a command is being performed (R141, U3). Safe. -/
  | resetDuringCommand
  /-- Raised by a launch whose pins are shared, with one another or with another driver (R132, R148, U1). Safe. -/
  | sharedPins
  /-- Raised by a launch whose other parameters break a constraint of R4, R5 or R89. Safe. -/
  | badParameters
  deriving DecidableEq, Repr

/-- The state after reset of a block with parameters `p` (R25, R140). -/
def State.resetOf (p : Params) : State :=
  { params := p
    digitCount := none
    initialised := false
    dir := { data := .input, clk := .input, load := .input }
    pin := { data := false, clk := false, load := false }
    pending := []
    result := none
    trace := []
    port := [] }

/-- The state right after reset of the block whose parameters `Config` names. -/
def State.reset : State := State.resetOf Config.params

end Sys2Proof.Machine
end

