-- ==== Sys2Proof/Machine/Flags.lean ====
section
/-! DEFINITION. The status bits of the block. It has no flags, condition codes or predicates (R21): the one derived
bit is `READY` (R18), and the one status bit that gates commands is `INITIALISED` (R13). -/

namespace Sys2Proof.Machine

/-- `READY = 1` exactly when `PENDING` is empty (R18). -/
def State.ready (s : State) : Bool := s.pending.isEmpty

/-- The precondition `INITIALISED = 1` (R13, R144): the command's actions where it holds, a refusal where not. -/
def requireInitialised (s : State) (as : List Action) : Except Refusal (List Action) :=
  if s.initialised then .ok as else .error .notInitialised

end Sys2Proof.Machine
end

