-- ==== Sys2Proof/Machine/Operands.lean ====
section
/-! DEFINITION. Operand forms: what a command's rule computes from its operands before it sends a frame. -/

namespace Sys2Proof.Machine

/-- `clamp(v, lo, hi)` over the integers (section 5 of 00_scope.md). -/
def clamp (v lo hi : Int) : Int :=
  if v < lo then lo else if hi < v then hi else v

/-- A flag operand is true when it is not 0 (R55, D6); the byte sent is 1 or 0, never the operand (R85, R88). -/
def flagByte (f : Int) : Byte :=
  if f ≠ 0 then 1#8 else 0#8

/-- The intensity value of a level, the three-way choice of R86. -/
def intensityByte (l : Int) : Byte :=
  if l ≤ 0 then 0#8
  else if 16 < l then 15#8
  else toByte (l - 1)

/-- The stored digit count (R111). -/
def effectiveCount (n : Int) : Int := clamp n 1 8

/-- The scan-limit value of a stored digit count (R112). -/
def scanLimitByte (count : Int) : Byte :=
  toByte (max count 4 - 1)

/-- The index test of `SETDIGIT` and `SETROW` (R98): signed, on the whole operand. -/
def indexInRange (w count : Int) : Bool :=
  decide (0 ≤ w ∧ w ≤ count - 1)

/-- The register address of a digit index: `which + 1` (R31, R98). -/
def digitAddress (w : Int) : Byte := toByte (w + 1)

/-- Bit `i` of a byte as a one-bit word. -/
def bitOf (v : Byte) (i : Nat) : BitVec 1 := v.extractLsb' i 1

/-- `PERMUTE` (R95), written from its formula, bit 7 first. -/
def permute (v : Byte) : Byte :=
  bitOf v 7 ++ bitOf v 0 ++ bitOf v 1 ++ bitOf v 2 ++ bitOf v 3 ++ bitOf v 4 ++ bitOf v 5 ++ bitOf v 6

/-- `P(v)` (R97): `PERMUTE` in the translating variant, the byte itself in the plain one. -/
def contentByte (x : Variant) (v : Byte) : Byte :=
  match x with
  | .plain => v
  | .translating => permute v

/-- The version number of the block (R89). -/
def versionNumber (p : Params) : Int :=
  match p.variant with
  | .plain => p.versionPlain
  | .translating => p.versionTranslating

end Sys2Proof.Machine
end

