-- ==== Sys2Proof/Machine/Ops.lean ====
section
/-! DEFINITION. The shared operations: performing events and updates, the register write, running a command at the
two levels of R7, power-on, launch, the result port, and the command port. There is no exception to take and none to
return from (R120, R125, R126). -/

namespace Sys2Proof.Machine

/-- One event (R14, R15, R73): its effect on the pins, and its entry in the trace. A `D` event changes nothing else. -/
def perform (e : Event) (s : State) : State :=
  match e with
  | .oe p => { s with dir := s.dir.set p .output, trace := s.trace ++ [e] }
  | .w p b => { s with pin := s.pin.set p b, trace := s.trace ++ [e] }
  | .d _ => { s with trace := s.trace ++ [e] }

/-- One state update of a command's rule (R16). -/
def applyUpdate (u : Update) (s : State) : State :=
  match u with
  | .digitCount n => { s with digitCount := some n }
  | .initialised => { s with initialised := true }
  | .result v => { s with result := some v }

/-- One entry of a command's list. -/
def act (a : Action) (s : State) : State :=
  match a with
  | .event e => perform e s
  | .update u => applyUpdate u s

/-- The whole list of a command, in order (R7, command level). -/
def performAll : List Action → State → State
  | [], s => s
  | a :: as, s => performAll as (act a s)

/-- A list of events as a command's list. -/
def events (es : List Event) : List Action := es.map Action.event

/-- One bit of `SHIFT8` (R71): present the bit, clock up, clock down. -/
def shiftBit (b : Bool) : List Event :=
  [.w .data b, .w .clk true, .w .clk false]

/-- `SHIFT8(x)` (R71): bit 7 first, bit 0 last. -/
def shift8 (x : Byte) : List Event :=
  [7, 6, 5, 4, 3, 2, 1, 0].flatMap (fun i => shiftBit (x.getLsbD i))

/-- The register write of R70: the events of one frame, `t` being `T_SETTLE_US`. -/
def registerWrite (t : Nat) (a v : Byte) : List Event :=
  [.w .load false, .d t] ++ shift8 a ++ shift8 v ++ [.d t, .w .load true]

/-- Register writes one after another, with nothing between them (R151). -/
def registerWrites (t : Nat) (fs : List (Byte × Byte)) : List Event :=
  fs.flatMap (fun f => registerWrite t f.1 f.2)

/-- The actions of a command that only sends register writes, under its precondition (R13). -/
def sendFrames (s : State) (fs : List (Byte × Byte)) : Except Refusal (List Action) :=
  requireInitialised s (events (registerWrites s.params.tSettle fs))

/-- A command as one atomic step (R7, command level): all its actions, to completion. It can be issued only when
`READY = 1` (R18). -/
def complete (plan : Except Refusal (List Action)) (s : State) : Host.Outcome State Fault Refusal :=
  if s.ready then
    match plan with
    | .ok as => .next (performAll as s)
    | .error r => .refused r
  else .refused .notReady

/-- The state updates at the head of a list are done at once; what is left, from the first event on, becomes
`PENDING` (R16). -/
def settle : List Action → State → State
  | .update u :: as, s => settle as (applyUpdate u s)
  | as, s => { s with pending := as }

/-- A command accepted at the event level (R7, R16): its list becomes `PENDING`. -/
def accept (plan : Except Refusal (List Action)) (s : State) : Host.Outcome State Fault Refusal :=
  if s.ready then
    match plan with
    | .ok as => .next (settle as s)
    | .error r => .refused r
  else .refused .notReady

/-- The head of `PENDING` is performed and removed (R16). -/
def performNext (s : State) : State :=
  match s.pending with
  | [] => s
  | a :: as => settle as (act a s)

/-- The state a command in progress comes to when its pending list is performed to the end. -/
def State.finish (s : State) : State :=
  performAll s.pending { s with pending := [] }

/-- Power-on reset (R140). It keeps the parameters and what the host will do next; while a command is being
performed it is refused (R141). -/
def powerOnReset (s : State) : Host.Outcome State Fault Refusal :=
  if s.ready then .next { State.resetOf s.params with port := s.port }
  else .refused .resetDuringCommand

/-- A launch: the block wired to its pins beside drivers that drive the pins `others`. A launch with shared pins is
refused (R132, R148, D27), and so is one whose parameters break a constraint of R4. -/
def launch (p : Params) (others : List Nat) : Host.Outcome State Fault Refusal :=
  if !p.pinsDistinct || others.contains p.pinData || others.contains p.pinClk || others.contains p.pinLoad then
    .refused .sharedPins
  else if !p.wf then .refused .badParameters
  else .next (State.resetOf p)

/-- The host reads the result port (R17). Before any `VERSION` it holds no value, and R25 states the outcome of the read:
"reading it is a refusal, never a zero". No step and no instruction reads `RESULT`. -/
def readResult (s : State) : Host.Outcome Int Fault Refusal :=
  match s.result with
  | some v => .next v
  | none => .refused .resultUnspecified

/-- The instruction a port item stands for: a command in its abstract form is itself (R54), a code is decoded under
the block's own addresses; nothing for a reserved word (R56) and for power-on. -/
def PortItem.instr (m : AddrMap) : PortItem → Option Instr
  | .code c => (decode m c).toOption
  | .call i => some i
  | .powerOn => none

end Sys2Proof.Machine
end

