-- ==== Sys2Proof/Machine/Configuration.lean ====
section
/-! DEFINITION. The family of 41_configuration.md: `ENABLE`, `SETINT`, `TEST`, `VERSION`. -/

namespace Sys2Proof.Machine

/-- `ENABLE f` (R85). -/
def planEnable (f : Int) (s : State) : Except Refusal (List Action) :=
  sendFrames s [(s.params.addrs.shutdown, flagByte f)]

/-- `ENABLE` as one step (R85). -/
def execEnable (f : Int) (s : State) : Host.Outcome State Fault Refusal :=
  complete (planEnable f s) s

/-- `SETINT l` (R86). -/
def planSetint (l : Int) (s : State) : Except Refusal (List Action) :=
  sendFrames s [(s.params.addrs.intensity, intensityByte l)]

/-- `SETINT` as one step (R86). -/
def execSetint (l : Int) (s : State) : Host.Outcome State Fault Refusal :=
  complete (planSetint l s) s

/-- `TEST f` (R88). -/
def planTest (f : Int) (s : State) : Except Refusal (List Action) :=
  sendFrames s [(s.params.addrs.displayTest, flagByte f)]

/-- `TEST` as one step (R88). -/
def execTest (f : Int) (s : State) : Host.Outcome State Fault Refusal :=
  complete (planTest f s) s

/-- `VERSION` (R89): no event and no precondition. -/
def planVersion (s : State) : Except Refusal (List Action) :=
  .ok [.update (.result (versionNumber s.params))]

/-- `VERSION` as one step (R89). -/
def execVersion (s : State) : Host.Outcome State Fault Refusal :=
  complete (planVersion s) s

end Sys2Proof.Machine
end

