-- ==== Sys2Proof/Machine/DigitContent.lean ====
section
/-! DEFINITION. The family of 42_digit_content.md: `SETDIGIT`, `SETROW`, `CLEAR`. -/

namespace Sys2Proof.Machine

/-- The register writes of a digit-content command, given the stored count (R98): one in range, none out of range. -/
def digitFrames (x : Variant) (count w v : Int) : List (Byte × Byte) :=
  if indexInRange w count then [(digitAddress w, contentByte x (toByte v))] else []

/-- A digit-content command (R98): it reads `DIGIT_COUNT`. Where that holds no value, R25 states the outcome of the read:
"reading it is a refusal, never a zero"; before `INIT` the refusal is that of R144. -/
def planDigit (w v : Int) (s : State) : Except Refusal (List Action) :=
  match s.digitCount with
  | some count => sendFrames s (digitFrames s.params.variant count w v)
  | none => if s.initialised then .error .digitCountUnspecified else .error .notInitialised

/-- `SETDIGIT w, v` (R98). -/
def planSetdigit (w v : Int) (s : State) : Except Refusal (List Action) :=
  planDigit w v s

/-- `SETDIGIT` as one step (R98). -/
def execSetdigit (w v : Int) (s : State) : Host.Outcome State Fault Refusal :=
  complete (planSetdigit w v s) s

/-- `SETROW w, v` (R99): identical behaviour. -/
def planSetrow (w v : Int) (s : State) : Except Refusal (List Action) :=
  planDigit w v s

/-- `SETROW` as one step (R99). -/
def execSetrow (w v : Int) (s : State) : Host.Outcome State Fault Refusal :=
  complete (planSetrow w v s) s

/-- The eight register writes that clear the digits, ascending (R100). -/
def clearFrames : List (Byte × Byte) :=
  [(1#8, 0#8), (2#8, 0#8), (3#8, 0#8), (4#8, 0#8), (5#8, 0#8), (6#8, 0#8), (7#8, 0#8), (8#8, 0#8)]

/-- `CLEAR` (R100): whatever the digit count and the variant. -/
def planClear (s : State) : Except Refusal (List Action) :=
  sendFrames s clearFrames

/-- `CLEAR` as one step (R100). -/
def execClear (s : State) : Host.Outcome State Fault Refusal :=
  complete (planClear s) s

end Sys2Proof.Machine
end

