-- ==== Sys2Proof/Machine/Frames.lean ====
section
/-! DEFINITION. The family of the wire frames (`FRAME16`, R51, R52). A frame's meaning is the register write that puts
its 16 bits on the wires (R70, R51): the only way a frame comes into being. Log entry 11. -/

namespace Sys2Proof.Machine

/-- `FR.DIGIT0` (R31, R52): the frame for digit register 1. -/
def planFrDigit0 (v : Byte) (s : State) : Except Refusal (List Action) :=
  sendFrames s [(1#8, v)]

/-- `FR.DIGIT0` as one step (R70). -/
def execFrDigit0 (v : Byte) (s : State) : Host.Outcome State Fault Refusal :=
  complete (planFrDigit0 v s) s

/-- `FR.DIGIT1` (R31, R52): the frame for digit register 2. -/
def planFrDigit1 (v : Byte) (s : State) : Except Refusal (List Action) :=
  sendFrames s [(2#8, v)]

/-- `FR.DIGIT1` as one step (R70). -/
def execFrDigit1 (v : Byte) (s : State) : Host.Outcome State Fault Refusal :=
  complete (planFrDigit1 v s) s

/-- `FR.DIGIT2` (R31, R52): the frame for digit register 3. -/
def planFrDigit2 (v : Byte) (s : State) : Except Refusal (List Action) :=
  sendFrames s [(3#8, v)]

/-- `FR.DIGIT2` as one step (R70). -/
def execFrDigit2 (v : Byte) (s : State) : Host.Outcome State Fault Refusal :=
  complete (planFrDigit2 v s) s

/-- `FR.DIGIT3` (R31, R52): the frame for digit register 4. -/
def planFrDigit3 (v : Byte) (s : State) : Except Refusal (List Action) :=
  sendFrames s [(4#8, v)]

/-- `FR.DIGIT3` as one step (R70). -/
def execFrDigit3 (v : Byte) (s : State) : Host.Outcome State Fault Refusal :=
  complete (planFrDigit3 v s) s

/-- `FR.DIGIT4` (R31, R52): the frame for digit register 5. -/
def planFrDigit4 (v : Byte) (s : State) : Except Refusal (List Action) :=
  sendFrames s [(5#8, v)]

/-- `FR.DIGIT4` as one step (R70). -/
def execFrDigit4 (v : Byte) (s : State) : Host.Outcome State Fault Refusal :=
  complete (planFrDigit4 v s) s

/-- `FR.DIGIT5` (R31, R52): the frame for digit register 6. -/
def planFrDigit5 (v : Byte) (s : State) : Except Refusal (List Action) :=
  sendFrames s [(6#8, v)]

/-- `FR.DIGIT5` as one step (R70). -/
def execFrDigit5 (v : Byte) (s : State) : Host.Outcome State Fault Refusal :=
  complete (planFrDigit5 v s) s

/-- `FR.DIGIT6` (R31, R52): the frame for digit register 7. -/
def planFrDigit6 (v : Byte) (s : State) : Except Refusal (List Action) :=
  sendFrames s [(7#8, v)]

/-- `FR.DIGIT6` as one step (R70). -/
def execFrDigit6 (v : Byte) (s : State) : Host.Outcome State Fault Refusal :=
  complete (planFrDigit6 v s) s

/-- `FR.DIGIT7` (R31, R52): the frame for digit register 8. -/
def planFrDigit7 (v : Byte) (s : State) : Except Refusal (List Action) :=
  sendFrames s [(8#8, v)]

/-- `FR.DIGIT7` as one step (R70). -/
def execFrDigit7 (v : Byte) (s : State) : Host.Outcome State Fault Refusal :=
  complete (planFrDigit7 v s) s

/-- `FR.DECODE` (R32, R52): the frame for decode mode, value 0. -/
def planFrDecode (s : State) : Except Refusal (List Action) :=
  sendFrames s [(s.params.addrs.decodeMode, 0#8)]

/-- `FR.DECODE` as one step (R70). -/
def execFrDecode (s : State) : Host.Outcome State Fault Refusal :=
  complete (planFrDecode s) s

/-- `FR.INTENSITY` (R32, R52): the frame for intensity. -/
def planFrIntensity (v : BitVec 4) (s : State) : Except Refusal (List Action) :=
  sendFrames s [(s.params.addrs.intensity, v.setWidth 8)]

/-- `FR.INTENSITY` as one step (R70). -/
def execFrIntensity (v : BitVec 4) (s : State) : Host.Outcome State Fault Refusal :=
  complete (planFrIntensity v s) s

/-- `FR.SCANLIMIT` (R32, R52): the frame for scan limit. -/
def planFrScanlimit (v : BitVec 3) (s : State) : Except Refusal (List Action) :=
  sendFrames s [(s.params.addrs.scanLimit, v.setWidth 8)]

/-- `FR.SCANLIMIT` as one step (R70). -/
def execFrScanlimit (v : BitVec 3) (s : State) : Host.Outcome State Fault Refusal :=
  complete (planFrScanlimit v s) s

/-- `FR.SHUTDOWN` (R32, R52): the frame for shutdown. -/
def planFrShutdown (v : BitVec 1) (s : State) : Except Refusal (List Action) :=
  sendFrames s [(s.params.addrs.shutdown, v.setWidth 8)]

/-- `FR.SHUTDOWN` as one step (R70). -/
def execFrShutdown (v : BitVec 1) (s : State) : Host.Outcome State Fault Refusal :=
  complete (planFrShutdown v s) s

/-- `FR.TEST` (R32, R52): the frame for display test. -/
def planFrTest (v : BitVec 1) (s : State) : Except Refusal (List Action) :=
  sendFrames s [(s.params.addrs.displayTest, v.setWidth 8)]

/-- `FR.TEST` as one step (R70). -/
def execFrTest (v : BitVec 1) (s : State) : Host.Outcome State Fault Refusal :=
  complete (planFrTest v s) s

/-- `FR.RAW` (R70, R51): the frame for any address and value. -/
def planFrRaw (a : Byte) (v : Byte) (s : State) : Except Refusal (List Action) :=
  sendFrames s [(a, v)]

/-- `FR.RAW` as one step (R70). -/
def execFrRaw (a : Byte) (v : Byte) (s : State) : Host.Outcome State Fault Refusal :=
  complete (planFrRaw a v s) s

end Sys2Proof.Machine
end

