-- ==== Sys2Proof/Machine/Initialisation.lean ====
section
/-! DEFINITION. The family of 43_initialisation.md: `INIT`. -/

namespace Sys2Proof.Machine

/-- The thirteen register writes of `INIT` for a stored digit count, in the order of R110. -/
def initFrames (m : AddrMap) (count : Int) : List (Byte × Byte) :=
  [(m.displayTest, 0#8), (m.decodeMode, 0#8), (m.scanLimit, scanLimitByte count), (m.intensity, 15#8)]
    ++ clearFrames ++ [(m.shutdown, 0#8)]

/-- The pin events that open `INIT` (R110): the three pins become outputs, then `LOAD` goes high. -/
def initPinEvents : List Event :=
  [.oe .data, .oe .clk, .oe .load, .w .load true]

/-- `INIT n` (R110): the count is stored first, `INITIALISED` is set when the whole sequence is out (R13). It has no
precondition. -/
def planInit (n : Int) (s : State) : Except Refusal (List Action) :=
  .ok ([.update (.digitCount (effectiveCount n))]
    ++ events (initPinEvents ++ registerWrites s.params.tSettle (initFrames s.params.addrs (effectiveCount n)))
    ++ [.update .initialised])

/-- `INIT` as one step (R110). -/
def execInit (n : Int) (s : State) : Host.Outcome State Fault Refusal :=
  complete (planInit n s) s

end Sys2Proof.Machine
end

