-- ==== Sys2Proof/Machine/SerialWrite.lean ====
section
/-! DEFINITION. The family of 40_serial_write.md: `WRREG`. -/

namespace Sys2Proof.Machine

/-- `WRREG a, v` (R70): one register write of the operands reduced mod 256 (R77), unchecked and never permuted. -/
def planWrreg (a v : Int) (s : State) : Except Refusal (List Action) :=
  sendFrames s [(toByte a, toByte v)]

/-- `WRREG` as one step (R70). -/
def execWrreg (a v : Int) (s : State) : Host.Outcome State Fault Refusal :=
  complete (planWrreg a v s) s

end Sys2Proof.Machine
end

