-- ==== Sys2Proof/Machine/Dispatch.lean ====
section
/-! DEFINITION. The dispatch: one arm per constructor of Instr, each one call of the instruction's meaning. -/

namespace Sys2Proof.Machine

/-- The meaning of an instruction, at the command level (R7). -/
def exec (i : Instr) (s : State) : Host.Outcome State Fault Refusal :=
  match i with
  | .init n => Sys2Proof.Machine.execInit n s
  | .wrreg a v => Sys2Proof.Machine.execWrreg a v s
  | .enable f => Sys2Proof.Machine.execEnable f s
  | .setint l => Sys2Proof.Machine.execSetint l s
  | .test f => Sys2Proof.Machine.execTest f s
  | .setdigit w v => Sys2Proof.Machine.execSetdigit w v s
  | .setrow w v => Sys2Proof.Machine.execSetrow w v s
  | .clear => Sys2Proof.Machine.execClear s
  | .version => Sys2Proof.Machine.execVersion s
  | .frDigit0 v => Sys2Proof.Machine.execFrDigit0 v s
  | .frDigit1 v => Sys2Proof.Machine.execFrDigit1 v s
  | .frDigit2 v => Sys2Proof.Machine.execFrDigit2 v s
  | .frDigit3 v => Sys2Proof.Machine.execFrDigit3 v s
  | .frDigit4 v => Sys2Proof.Machine.execFrDigit4 v s
  | .frDigit5 v => Sys2Proof.Machine.execFrDigit5 v s
  | .frDigit6 v => Sys2Proof.Machine.execFrDigit6 v s
  | .frDigit7 v => Sys2Proof.Machine.execFrDigit7 v s
  | .frDecode => Sys2Proof.Machine.execFrDecode s
  | .frIntensity v => Sys2Proof.Machine.execFrIntensity v s
  | .frScanlimit v => Sys2Proof.Machine.execFrScanlimit v s
  | .frShutdown v => Sys2Proof.Machine.execFrShutdown v s
  | .frTest v => Sys2Proof.Machine.execFrTest v s
  | .frRaw a v => Sys2Proof.Machine.execFrRaw a v s

end Sys2Proof.Machine
end

