-- ==== Sys2Proof/Machine/EventLevel.lean ====
section
/-! DEFINITION. The event level of R7: a command is accepted, its list becomes `PENDING`, and its events are performed
one at a time. -/

namespace Sys2Proof.Machine

/-- The list of events and state updates a command's rule computes (R16). -/
def plan (i : Instr) (s : State) : Except Refusal (List Action) :=
  match i with
  | .init n => planInit n s
  | .wrreg a v => planWrreg a v s
  | .enable f => planEnable f s
  | .setint l => planSetint l s
  | .test f => planTest f s
  | .setdigit w v => planSetdigit w v s
  | .setrow w v => planSetrow w v s
  | .clear => planClear s
  | .version => planVersion s
  | .frDigit0 v => planFrDigit0 v s
  | .frDigit1 v => planFrDigit1 v s
  | .frDigit2 v => planFrDigit2 v s
  | .frDigit3 v => planFrDigit3 v s
  | .frDigit4 v => planFrDigit4 v s
  | .frDigit5 v => planFrDigit5 v s
  | .frDigit6 v => planFrDigit6 v s
  | .frDigit7 v => planFrDigit7 v s
  | .frDecode => planFrDecode s
  | .frIntensity v => planFrIntensity v s
  | .frScanlimit v => planFrScanlimit v s
  | .frShutdown v => planFrShutdown v s
  | .frTest v => planFrTest v s
  | .frRaw a v => planFrRaw a v s

/-- The command level: what one port item does when the block is ready. A reserved word is a silent no-op (R56). -/
def issue (x : PortItem) (s : State) : Host.Outcome State Fault Refusal :=
  match x with
  | .powerOn => powerOnReset s
  | y =>
    match y.instr s.params.addrs with
    | some i => exec i s
    | none => .next s

/-- The event level: what one port item does when the block is ready. -/
def issueEvents (x : PortItem) (s : State) : Host.Outcome State Fault Refusal :=
  match x with
  | .powerOn => powerOnReset s
  | y =>
    match y.instr s.params.addrs with
    | some i => accept (plan i s) s
    | none => .next s

/-- What comes next at the port, taken by `f`; with nothing there the block waits and nothing changes (R140, R146). -/
def takePort (f : PortItem → State → Host.Outcome State Fault Refusal) (s : State) :
    Host.Outcome State Fault Refusal :=
  match s.port with
  | [] => .next s
  | x :: rest => f x { s with port := rest }

/-- One step of the event-level machine (R7): the next event of the command being performed, or the next item of the
port. -/
def eventStep (s : State) : Host.Outcome State Fault Refusal :=
  match s.pending with
  | _ :: _ => .next (performNext s)
  | [] => takePort issueEvents s

/-- The code an opcode-table word makes, at the head of the port, the block ready for it. -/
def placeWord (s : State) (nbits w : Nat) : State :=
  match tableCode nbits w with
  | some c => { s with pending := [], port := .code c :: s.port }
  | none => s

end Sys2Proof.Machine
end

