-- ==== Sys2Proof/Machine/Step.lean ====
section
/-! DEFINITION. One step of the machine (R7): the command level, one command to a step. -/

namespace Sys2Proof.Machine

/-- One step. With `PENDING` empty, the next item of the port: a command is one atomic step (R7, the normative level).
In a state in the middle of a command (which the event level reaches), the next event. -/
def step (s : State) : Host.Outcome State Fault Refusal :=
  match s.pending with
  | _ :: _ => .next (performNext s)
  | [] => takePort issue s

/-- The state with an opcode-table word at the head of the port and the block ready, so that the next step runs it.
It stands for the host handing the word to the block (log entry 10). -/
def State.withFetchWord (s : State) (nbits w : Nat) : State := placeWord s nbits w

end Sys2Proof.Machine
end

