-- ==== Sys2Proof/Machine/Receiver.lean ====
section
/-! DEFINITION. The reference receiver and the register image (R44, R45): functions of a trace. They are no state of
the block (R10, R19); claims about what the attached chip is sent are stated through them. -/

namespace Sys2Proof.Machine

/-- One entry of the frame trace: `Latch(n, address, value)` (R44). -/
structure Latch where
  n       : Nat
  address : Byte
  value   : Byte
  deriving DecidableEq, Repr

/-- A good frame (R44): exactly 16 clocks. -/
def Latch.good (l : Latch) : Bool := decide (l.n = 16)

/-- The reference receiver (R44): the levels and directions of the three wires so far, its shift register `RXSR`, its
clock count `NCLK`, and the frame trace so far. -/
structure Receiver where
  dir    : Pins Dir
  pin    : Pins Bool
  rxsr   : BitVec 16
  nclk   : Nat
  frames : List Latch
  deriving DecidableEq, Repr

/-- The receiver before the first event. What `RXSR` holds then is unspecified (R44, U4): it is the argument `rx`, and
every claim is for all of them. -/
def Receiver.start (rx : BitVec 16) : Receiver :=
  { dir := { data := .input, clk := .input, load := .input }
    pin := { data := false, clk := false, load := false }
    rxsr := rx
    nclk := 0
    frames := [] }

/-- `RXSR <- {RXSR[14:0], bit}` (R44). -/
def shiftIn (x : BitVec 16) (b : Bool) : BitVec 16 :=
  x.extractLsb' 0 15 ++ BitVec.ofBool b

/-- The rising clock edge samples `DATA` (R44). -/
def Receiver.clockUp (r : Receiver) : Receiver :=
  if r.dir.clk = .output ∧ r.pin.clk = false then
    { r with rxsr := shiftIn r.rxsr r.pin.data, nclk := r.nclk + 1 }
  else r

/-- The rising edge of `LOAD` takes the frame (R36, R44). -/
def Receiver.loadUp (r : Receiver) : Receiver :=
  if r.dir.load = .output ∧ r.pin.load = false then
    { r with
      frames := r.frames ++ [{ n := r.nclk, address := r.rxsr.extractLsb' 8 8, value := r.rxsr.extractLsb' 0 8 }]
      nclk := 0 }
  else r

/-- One event at the receiver (R44). -/
def Receiver.take (r : Receiver) : Event → Receiver
  | .oe p => { r with dir := r.dir.set p .output }
  | .w .clk true => { r.clockUp with pin := r.pin.set .clk true }
  | .w .load true => { r.loadUp with pin := r.pin.set .load true }
  | .w p b => { r with pin := r.pin.set p b }
  | .d _ => r

/-- The receiver run over a list of events. -/
def Receiver.takeAll (r : Receiver) (t : List Event) : Receiver := t.foldl Receiver.take r

/-- The receiver after a whole trace. -/
def receive (rx : BitVec 16) (t : List Event) : Receiver := (Receiver.start rx).takeAll t

/-- The frame trace of a trace (R44). -/
def frameTrace (rx : BitVec 16) (t : List Event) : List Latch := (receive rx t).frames

/-- The register image's form: address and value pairs, the addresses strictly rising. An address that is not listed
is absent: it was never written (R45). -/
abbrev Memory := List Host.Cell

/-- The canonical form of an image: strictly rising addresses, all of them 8-bit (R30). -/
def Memory.wf : Memory → Bool
  | [] => true
  | [c] => decide (c.1 < 256)
  | c :: d :: m => decide (c.1 < d.1) && Memory.wf (d :: m)

/-- The value last written at an address, or nothing (R45). -/
def Memory.read : Memory → Nat → Option Byte
  | [], _ => none
  | c :: m, a => if c.1 = a then some c.2 else Memory.read m a

/-- A byte written at an address, replacing an earlier one (R45). -/
def Memory.write : Memory → Nat → Byte → Memory
  | [], a, v => [(a, v)]
  | c :: m, a, v =>
    if a < c.1 then (a, v) :: c :: m
    else if a = c.1 then (a, v) :: m
    else c :: Memory.write m a v

/-- One entry of the frame trace at the image: a good frame writes its value, a malformed latch is ignored (R45). -/
def Latch.applyTo (l : Latch) (m : Memory) : Memory :=
  if l.good then m.write l.address.toNat l.value else m

/-- The register image of a frame trace (R45). -/
def imageOf (fs : List Latch) : Memory := fs.foldl (fun m l => l.applyTo m) []

/-- The register image of a state's trace (R45). -/
def State.image (rx : BitVec 16) (s : State) : Memory := imageOf (frameTrace rx s.trace)

/-- What a chip that stores every written byte would hold at an address (R45). -/
def State.imageAt (rx : BitVec 16) (s : State) (a : Byte) : Option Byte := (s.image rx).read a.toNat

end Sys2Proof.Machine
end

