-- ==== Sys2Proof/Safety.lean ====
section
/-! DEFINITION. What claims call a good state and a good trace: the settling delays (R147), the idle state between two
commands (R12, R15, R25, R152), and the invariant that every step of either level keeps. -/

namespace Sys2Proof.Machine

/-- A delay event of at least 5 microseconds (R6, R147). -/
def isSettling : Event → Bool
  | .d t => decide (5 ≤ t)
  | _ => false

/-- What must stand directly before an event, `prev` being the event before it (R147): a settling delay, or the
enabling of `LOAD` (event 4 of `INIT`, which ends no frame), before `W(LOAD, 1)`; and after `W(LOAD, 0)` nothing but a
settling delay. -/
def followsWell (prev : Option Event) (e : Event) : Bool :=
  (decide (prev ≠ some (.w .load false)) || isSettling e)
    && (decide (e ≠ .w .load true)
      || (match prev with
          | some p => isSettling p || decide (p = .oe .load)
          | none => false))

/-- R147 along a list of events that comes after `prev`; the list does not end inside the first delay's place. -/
def settledAfter (prev : Option Event) : List Event → Bool
  | [] => decide (prev ≠ some (.w .load false))
  | e :: es => followsWell prev e && settledAfter (some e) es

/-- R147 of a whole trace. -/
def settled (t : List Event) : Bool := settledAfter none t

/-- The frame trace of a block that has been initialised (R149): its first entry is the latch edge without data, every
other entry is a good frame. -/
def oneMalformedLatch (fs : List Latch) : Prop :=
  ∃ l rest, fs = l :: rest ∧ l.n = 0 ∧ ∀ f ∈ rest, f.good = true

/-- A state between two commands. -/
structure Idle (s : State) : Prop where
  /-- R18. -/
  ready : s.pending = []
  /-- R4, R5, R11, R89. -/
  params_wf : s.params.wf = true
  /-- R15, R20: the latches and directions are what the trace makes them; no clock pulse since the last latch. -/
  wires : ∀ rx, (receive rx s.trace).pin = s.pin ∧ (receive rx s.trace).dir = s.dir ∧ (receive rx s.trace).nclk = 0
  /-- R25, R140: before `INIT` the block is as reset left it, but for `RESULT`. -/
  before_init : s.initialised = false →
    s.dir = { data := .input, clk := .input, load := .input } ∧
    s.pin = { data := false, clk := false, load := false } ∧ s.digitCount = none ∧ s.trace = []
  /-- R12, R14, R15, R152: after `INIT` the pins are driven at their idle levels and the count is in 1..8. -/
  after_init : s.initialised = true →
    s.dir = { data := .output, clk := .output, load := .output } ∧
    s.pin.clk = false ∧ s.pin.load = true ∧ ∃ d, s.digitCount = some d ∧ 1 ≤ d ∧ d ≤ 8
  /-- R147. -/
  settling : settled s.trace = true
  /-- R35, R149. -/
  framing : s.initialised = true → ∀ rx, oneMalformedLatch (frameTrace rx s.trace)

/-- The invariant: the command being performed, if any, comes to an idle state. -/
def Coherent (s : State) : Prop := Idle s.finish

/-- The expansion table of R62: the register writes an instruction performs in a state, in order. -/
def expansion (s : State) : Instr → List (Byte × Byte)
  | .init n => initFrames s.params.addrs (effectiveCount n)
  | .wrreg a v => [(toByte a, toByte v)]
  | .enable f => [(s.params.addrs.shutdown, flagByte f)]
  | .setint l => [(s.params.addrs.intensity, intensityByte l)]
  | .test f => [(s.params.addrs.displayTest, flagByte f)]
  | .setdigit w v => digitFrames s.params.variant (s.digitCount.getD 0) w v
  | .setrow w v => digitFrames s.params.variant (s.digitCount.getD 0) w v
  | .clear => clearFrames
  | .version => []
  | .frDigit0 v => [(1#8, v)]
  | .frDigit1 v => [(2#8, v)]
  | .frDigit2 v => [(3#8, v)]
  | .frDigit3 v => [(4#8, v)]
  | .frDigit4 v => [(5#8, v)]
  | .frDigit5 v => [(6#8, v)]
  | .frDigit6 v => [(7#8, v)]
  | .frDigit7 v => [(8#8, v)]
  | .frDecode => [(s.params.addrs.decodeMode, 0#8)]
  | .frIntensity v => [(s.params.addrs.intensity, v.setWidth 8)]
  | .frScanlimit v => [(s.params.addrs.scanLimit, v.setWidth 8)]
  | .frShutdown v => [(s.params.addrs.shutdown, v.setWidth 8)]
  | .frTest v => [(s.params.addrs.displayTest, v.setWidth 8)]
  | .frRaw a v => [(a, v)]

/-- An event with the level of a data write left out. -/
def eventShape : Event → Event
  | .w .data _ => .w .data false
  | e => e

/-- Two blocks that differ in the variant, between two commands: everything else is the same, but for levels of `DATA`
in the trace and at the latch, and for the value of `RESULT` (R2, R89). -/
structure Twins (s s' : State) : Prop where
  params      : s'.params = { s.params with variant := s'.params.variant }
  ready       : s.pending = [] ∧ s'.pending = []
  digitCount  : s'.digitCount = s.digitCount
  initialised : s'.initialised = s.initialised
  dir         : s'.dir = s.dir
  pin         : s'.pin.clk = s.pin.clk ∧ s'.pin.load = s.pin.load
  result      : s'.result.isSome = s.result.isSome
  trace       : s'.trace.map eventShape = s.trace.map eventShape
  port        : s'.port = s.port

/-- The least duration of a list of events, in microseconds: the sum of its delays (R128, R156). -/
def leastMicros (t : List Event) : Nat :=
  (t.map (fun e => match e with | .d k => k | _ => 0)).sum

/-- `k` steps of the event-level machine. -/
def eventRun : Nat → State → Host.Outcome State Fault Refusal
  | 0, s => .next s
  | k + 1, s =>
    match eventStep s with
    | .next t => eventRun k t
    | .fault r => .fault r
    | .refused r => .refused r

end Sys2Proof.Machine
end

