-- ==== Sys2Proof/Certificates/Slice0/Obligations.lean ====
section
/-! DEFINITION. The statements for the provers. -/

open Sys2Proof Sys2Proof.Machine

/-! ### Reset, the port, and one step -/

/-- 10_state.md section 4 and 70_reset_and_hazards.md section 1: the state after reset, whatever the parameters, and
the wait for the first command. `digitCount` and `result` hold no value, as R25 says (written `none`: log entry 1). -/
def Obligations.ResetLeavesTheStateOfTheResetTable : Prop :=
  ∀ p : Params,
    (State.resetOf p).params = p ∧
    (State.resetOf p).initialised = false ∧
    (State.resetOf p).digitCount = none ∧
    (∀ x : Pin, (State.resetOf p).dir.get x = .input ∧ (State.resetOf p).pin.get x = false) ∧
    (State.resetOf p).pending = [] ∧
    (State.resetOf p).ready = true ∧
    (State.resetOf p).result = none ∧
    (State.resetOf p).trace = [] ∧
    step (State.resetOf p) = .next (State.resetOf p) ∧
    State.reset = State.resetOf Config.params

/-- The reset state is idle, for every set of parameters that meets the constraints of R4, and so is the reset state of
the block `Config` names, whatever its free values are (log entries 3 to 7). -/
def Obligations.ResetMeetsTheInvariant : Prop :=
  (∀ p : Params, p.wf = true → Coherent (State.resetOf p)) ∧ Coherent State.reset

/-- When the next item of the port stands for an instruction, the step is exactly that instruction's meaning, in the
state from which the item has been taken. The list of items is the model's own field (log entry 9). -/
def Obligations.StepRunsTheDecodedInstruction : Prop :=
  ∀ (s : State) (x : PortItem) (rest : List PortItem) (i : Instr),
    s.pending = [] → s.port = x :: rest → x.instr s.params.addrs = some i →
    step s = exec i { s with port := rest }

/-- A word of the opcode table placed by `withFetchWord` is run by the very next step. That `withFetchWord` stands for
the host's move is the model's choice (log entry 10). -/
def Obligations.FetchedWordRunsNext : Prop :=
  ∀ (s : State) (nbits w : Nat) (i : Instr),
    s.params.addrs = Config.addrs → decodeTableWord nbits w = some i →
    step (s.withFetchWord nbits w) = exec i { s with pending := [] }

/-- With no command at the port the block waits and nothing changes (R140, R146). -/
def Obligations.NothingHappensWithoutACommand : Prop :=
  ∀ s : State, s.pending = [] → s.port = [] → step s = .next s ∧ eventStep s = .next s

/-- R18: `READY` is 1 exactly when `PENDING` is empty, and no command is accepted while it is 0. The refusal is the
model's rendering of "cannot be issued" (log entry 13). -/
def Obligations.ReadyExactlyWhenNothingIsPending : Prop :=
  (∀ s : State, s.ready = true ↔ s.pending = []) ∧
  (∀ (s : State) (i : Instr), s.ready = false →
    exec i s = .refused .notReady ∧ accept (plan i s) s = .refused .notReady)

/-! ### Encoding -/

/-- Words written out from the spec's encodings, one or more of each family, with the instructions they stand for
(V-ENC-1, V-ENC-2, R52). -/
def Obligations.SampleWordsDecode : Prop :=
  decodeTableWord 32 0x10000600 = some (.init 6) ∧
  decodeTableWord 32 0x10FFFF00 = some (.init (-1)) ∧
  decodeTableWord 32 0x20AB0A0F = some (.wrreg 10 15) ∧
  decodeTableWord 32 0x300001AA = some (.enable 1) ∧
  decodeTableWord 32 0x40FFFB00 = some (.setint (-5)) ∧
  decodeTableWord 32 0x50000100 = some (.test 1) ∧
  decodeTableWord 32 0x60FFFFFF = some (.setdigit (-1) 255) ∧
  decodeTableWord 32 0x700007FF = some (.setrow 7 255) ∧
  decodeTableWord 32 0x800123FF = some .clear ∧
  decodeTableWord 32 0x90123456 = some .version ∧
  decodeTableWord 32 0x11000600 = none ∧
  decodeTableWord 32 0xA0000000 = none ∧
  decodeTableWord 16 0x016D = some (.frDigit0 0x6D#8) ∧
  decodeTableWord 16 0x08FF = some (.frDigit7 0xFF#8) ∧
  decodeTableWord 16 0x0900 = some .frDecode ∧
  decodeTableWord 16 0x0A0F = some (.frIntensity 15#4) ∧
  decodeTableWord 16 0x0B05 = some (.frScanlimit 5#3) ∧
  decodeTableWord 16 0x0C01 = some (.frShutdown 1#1) ∧
  decodeTableWord 16 0x0F00 = some (.frTest 0#1) ∧
  decodeTableWord 16 0x0D42 = some (.frRaw 0x0D#8 0x42#8)

/-- Decoding the encoding of a well-formed instruction gives it back, under every legal address map. -/
def Obligations.DecodeOfEncodeIsTheInstruction : Prop :=
  ∀ (m : AddrMap) (i : Instr), m.wf = true → i.wf m = true → decode m (encode m i) = .ok i

/-- What the decoder reads is well formed, and encodes to the same word again: exactly for a frame, and for a command
word up to the bits R57 ignores (both words decode alike). -/
def Obligations.DecodedInstructionsAreWellFormed : Prop :=
  ∀ (m : AddrMap) (c : Code) (i : Instr), m.wf = true → decode m c = .ok i →
    i.wf m = true ∧
    (∀ w, c = .frame16 w → encode m i = c) ∧
    (∀ w, c = .cmd32 w → ∃ w', encode m i = .cmd32 w' ∧ fieldOp w' = fieldOp w ∧ fieldZ w' = fieldZ w ∧
      decodeCmd w' = decodeCmd w)

/-- R56: which words are reserved, and that a reserved word at the port is a silent no-op: no event, no change, no
report; the step goes on. -/
def Obligations.ReservedWordsAreSilentNoOps : Prop :=
  ∀ (m : AddrMap) (w : CmdWord),
    ((∃ r, decode m (.cmd32 w) = .error r) ↔
      (fieldOp w = 0#4 ∨ 10 ≤ (fieldOp w).toNat ∨ fieldZ w ≠ 0#4)) ∧
    (∀ (s : State) (rest : List PortItem), s.pending = [] → s.port = .code (.cmd32 w) :: rest →
      (fieldOp w = 0#4 ∨ 10 ≤ (fieldOp w).toNat ∨ fieldZ w ≠ 0#4) →
      step s = .next { s with port := rest } ∧ eventStep s = .next { s with port := rest })

/-- R57: the bits marked `x` in R54, by opcode: `B` for `INIT`, `ENABLE`, `SETINT`, `TEST`; `A[15:8]` for `WRREG`; none
for `SETDIGIT`, `SETROW`; `A` and `B` for `CLEAR`, `VERSION`. Two words that differ only there are the same command. -/
def Obligations.IgnoredBitsDoNotMatter : Prop :=
  ∀ (m : AddrMap) (w w' : CmdWord), fieldOp w' = fieldOp w → fieldZ w' = fieldZ w →
    (((fieldOp w = 1#4 ∨ fieldOp w = 3#4 ∨ fieldOp w = 4#4 ∨ fieldOp w = 5#4) ∧ fieldA w' = fieldA w) ∨
      (fieldOp w = 2#4 ∧ (∀ i < 8, (fieldA w').getLsbD i = (fieldA w).getLsbD i) ∧ fieldB w' = fieldB w) ∨
      ((fieldOp w = 6#4 ∨ fieldOp w = 7#4) ∧ fieldA w' = fieldA w ∧ fieldB w' = fieldB w) ∨
      fieldOp w = 8#4 ∨ fieldOp w = 9#4) →
    decode m (.cmd32 w') = decode m (.cmd32 w)

/-! ### The register write -/

/-- R71: the 24 events of `SHIFT8`, bit 7 first, three to a bit, no delay among them. -/
def Obligations.ShiftSendsEachBitMostSignificantFirst : Prop :=
  ∀ x : Byte, shift8 x =
    [.w .data (x.getLsbD 7), .w .clk true, .w .clk false,
     .w .data (x.getLsbD 6), .w .clk true, .w .clk false,
     .w .data (x.getLsbD 5), .w .clk true, .w .clk false,
     .w .data (x.getLsbD 4), .w .clk true, .w .clk false,
     .w .data (x.getLsbD 3), .w .clk true, .w .clk false,
     .w .data (x.getLsbD 2), .w .clk true, .w .clk false,
     .w .data (x.getLsbD 1), .w .clk true, .w .clk false,
     .w .data (x.getLsbD 0), .w .clk true, .w .clk false]

/-- The table of 40_serial_write.md section 4: the 52 events of one frame, their counts, and where frame bit `j`
stands (event `3 + 3 * (15 - j)`, counting from 1) with its rising clock edge right after it. -/
def Obligations.FrameIsTheFiftyTwoEventsOfTheTable : Prop :=
  ∀ (t : Nat) (a v : Byte),
    registerWrite t a v =
      [.w .load false, .d t,
       .w .data (a.getLsbD 7), .w .clk true, .w .clk false, .w .data (a.getLsbD 6), .w .clk true, .w .clk false,
       .w .data (a.getLsbD 5), .w .clk true, .w .clk false, .w .data (a.getLsbD 4), .w .clk true, .w .clk false,
       .w .data (a.getLsbD 3), .w .clk true, .w .clk false, .w .data (a.getLsbD 2), .w .clk true, .w .clk false,
       .w .data (a.getLsbD 1), .w .clk true, .w .clk false, .w .data (a.getLsbD 0), .w .clk true, .w .clk false,
       .w .data (v.getLsbD 7), .w .clk true, .w .clk false, .w .data (v.getLsbD 6), .w .clk true, .w .clk false,
       .w .data (v.getLsbD 5), .w .clk true, .w .clk false, .w .data (v.getLsbD 4), .w .clk true, .w .clk false,
       .w .data (v.getLsbD 3), .w .clk true, .w .clk false, .w .data (v.getLsbD 2), .w .clk true, .w .clk false,
       .w .data (v.getLsbD 1), .w .clk true, .w .clk false, .w .data (v.getLsbD 0), .w .clk true, .w .clk false,
       .d t, .w .load true] ∧
    (registerWrite t a v).length = 52 ∧
    (registerWrite t a v).countP (fun e => match e with | .w .load _ => true | _ => false) = 2 ∧
    (registerWrite t a v).countP (fun e => match e with | .d _ => true | _ => false) = 2 ∧
    (registerWrite t a v).countP (fun e => match e with | .w .data _ => true | _ => false) = 16 ∧
    (registerWrite t a v).countP (fun e => decide (e = .w .clk true)) = 16 ∧
    (registerWrite t a v).countP (fun e => decide (e = .w .clk false)) = 16 ∧
    (∀ j < 16,
      (registerWrite t a v)[2 + 3 * (15 - j)]? = some (.w .data ((frameWord a v).getLsbD j)) ∧
      (registerWrite t a v)[3 + 3 * (15 - j)]? = some (.w .clk true))

/-- R70: `WRREG a, v` completes from every ready, initialised state with the events of one frame, every pair of bytes
as it is and never permuted; `DIGIT_COUNT`, `INITIALISED`, `RESULT` and `DIR` are not touched; without `INIT` it is
refused. Its encoding is `OP = 0010`, `a = A[7:0]`, `v = B`. -/
def Obligations.WrregSendsOneFrame : Prop :=
  (∀ (a v : Byte) (s : State), s.pending = [] → s.initialised = true →
    exec (.wrreg (a.toNat : Int) (v.toNat : Int)) s =
      .next { s with
        pin := { data := v.getLsbD 0, clk := false, load := true }
        trace := s.trace ++
          ([.w .load false, .d s.params.tSettle] ++ shift8 a ++ shift8 v ++ [.d s.params.tSettle, .w .load true]) }) ∧
  (∀ (a v : Int) (s : State), s.pending = [] → s.initialised = false →
    exec (.wrreg a v) s = .refused .notInitialised) ∧
  (∀ (m : AddrMap) (w : CmdWord), fieldZ w = 0#4 → fieldOp w = 2#4 →
    decode m (.cmd32 w) = .ok (.wrreg (((fieldA w).extractLsb' 0 8).toNat : Int) ((fieldB w).toNat : Int)))

/-- R77: an operand of `WRREG` outside 0..255 is reduced mod 256 first. -/
def Obligations.WideOperandsAreReducedModulo256 : Prop :=
  ∀ (a v : Int) (s : State),
    exec (.wrreg a v) s = exec (.wrreg (a % 256) (v % 256)) s ∧
    (s.pending = [] → s.initialised = true → ∃ a' v' : Byte,
      (a'.toNat : Int) = a % 256 ∧ (v'.toNat : Int) = v % 256 ∧
      exec (.wrreg a v) s =
        .next { s with
          pin := { data := v'.getLsbD 0, clk := false, load := true }
          trace := s.trace ++ registerWrite s.params.tSettle a' v' })

/-- The receiver's side of a register write (20_memory.md section 6): from idle levels with all pins driven, the 52
events add exactly one entry to the frame trace, `Latch(16, address, value)`, whatever the shift register held. -/
def Obligations.RegisterWriteAddsOneGoodLatch : Prop :=
  ∀ (r : Receiver) (t : Nat) (a v : Byte),
    r.dir = { data := .output, clk := .output, load := .output } → r.pin.load = true → r.pin.clk = false →
    r.nclk = 0 →
    (r.takeAll (registerWrite t a v)).frames = r.frames ++ [{ n := 16, address := a, value := v }] ∧
    (r.takeAll (registerWrite t a v)).nclk = 0 ∧
    (r.takeAll (registerWrite t a v)).pin = { data := v.getLsbD 0, clk := false, load := true }

/-! ### Configuration commands -/

/-- R85: `ENABLE f` sends 1 or 0 to the shutdown register, one frame whatever `f`, never the operand itself; nothing
else changes; without `INIT` it is refused. Its encoding is `OP = 0011`, `f` read from `A`. -/
def Obligations.EnableSendsOneOrZeroToShutdown : Prop :=
  (∀ (f : Int) (s : State), s.pending = [] → s.initialised = true →
    exec (.enable f) s =
      .next { s with
        pin := { data := decide (f ≠ 0), clk := false, load := true }
        trace := s.trace ++
          registerWrite s.params.tSettle s.params.addrs.shutdown (if f = 0 then 0#8 else 1#8) }) ∧
  (∀ (f : Int) (s : State), s.pending = [] → s.initialised = false →
    exec (.enable f) s = .refused .notInitialised) ∧
  (∀ (m : AddrMap) (w : CmdWord), fieldZ w = 0#4 → fieldOp w = 3#4 →
    decode m (.cmd32 w) = .ok (.enable (fieldA w).toInt))

/-- R88: `TEST f`, the same at the display-test register. -/
def Obligations.TestSendsOneOrZeroToDisplayTest : Prop :=
  (∀ (f : Int) (s : State), s.pending = [] → s.initialised = true →
    exec (.test f) s =
      .next { s with
        pin := { data := decide (f ≠ 0), clk := false, load := true }
        trace := s.trace ++
          registerWrite s.params.tSettle s.params.addrs.displayTest (if f = 0 then 0#8 else 1#8) }) ∧
  (∀ (f : Int) (s : State), s.pending = [] → s.initialised = false →
    exec (.test f) s = .refused .notInitialised) ∧
  (∀ (m : AddrMap) (w : CmdWord), fieldZ w = 0#4 → fieldOp w = 5#4 →
    decode m (.cmd32 w) = .ok (.test (fieldA w).toInt))

/-- R86, R87: `SETINT l` always sends exactly one frame to the intensity register, whose value is 0 for `l ≤ 0`,
`l - 1` for `1 ≤ l ≤ 16` and 15 for `l > 16`. -/
def Obligations.SetintFollowsTheIntensityLaw : Prop :=
  (∀ (l : Int) (s : State), s.pending = [] → s.initialised = true →
    ∃ r : Byte,
      (l ≤ 0 → r.toNat = 0) ∧ (1 ≤ l → l ≤ 16 → (r.toNat : Int) = l - 1) ∧ (16 < l → r.toNat = 15) ∧
      exec (.setint l) s =
        .next { s with
          pin := { data := r.getLsbD 0, clk := false, load := true }
          trace := s.trace ++ registerWrite s.params.tSettle s.params.addrs.intensity r }) ∧
  (∀ (l : Int) (s : State), s.pending = [] → s.initialised = false →
    exec (.setint l) s = .refused .notInitialised) ∧
  (∀ (m : AddrMap) (w : CmdWord), fieldZ w = 0#4 → fieldOp w = 4#4 →
    decode m (.cmd32 w) = .ok (.setint (fieldA w).toInt))

/-- R89: `VERSION` completes from every ready state, before `INIT` too, writes the variant's constant to `RESULT` and
changes nothing else; where the two constants differ, the answer tells the variant. -/
def Obligations.VersionWritesTheVariantsConstant : Prop :=
  (∀ s : State, s.pending = [] →
    exec .version s =
      .next { s with
        result := some (if s.params.variant = .plain then s.params.versionPlain else s.params.versionTranslating) }) ∧
  (∀ p q : Params, p.wf = true → { p with variant := q.variant } = q →
    (versionNumber p = versionNumber q ↔ p.variant = q.variant)) ∧
  (∀ (m : AddrMap) (w : CmdWord), fieldZ w = 0#4 → fieldOp w = 9#4 → decode m (.cmd32 w) = .ok .version)

/-! ### Digit content -/

/-- R95: where each bit of `PERMUTE` comes from. -/
def Obligations.PermuteMovesEachBitToItsPlace : Prop :=
  ∀ v : Byte, (permute v).getLsbD 7 = v.getLsbD 7 ∧ ∀ i < 7, (permute v).getLsbD (6 - i) = v.getLsbD i

/-- The properties 42_digit_content.md lists under the table of `PERMUTE`: an involution, a bijection, the same number
of bits set, its named fixed points and their number, and that it goes through `|||`, `&&&` and `^^^`. -/
def Obligations.PermuteIsAnInvolutionThatKeepsBits : Prop :=
  (∀ v : Byte, permute (permute v) = v) ∧
  (∀ w : Byte, ∃ v : Byte, permute v = w ∧ ∀ u : Byte, permute u = w → u = v) ∧
  (∀ v : Byte, (List.range 8).countP (fun i => (permute v).getLsbD i) = (List.range 8).countP (fun i => v.getLsbD i)) ∧
  permute 0x00#8 = 0x00#8 ∧ permute 0xFF#8 = 0xFF#8 ∧ permute 0x80#8 = 0x80#8 ∧ permute 0x08#8 = 0x08#8 ∧
  ((List.range 256).countP (fun n => decide (permute (BitVec.ofNat 8 n) = BitVec.ofNat 8 n))) = 32 ∧
  (∀ v w : Byte, permute (v ||| w) = permute v ||| permute w ∧ permute (v &&& w) = permute v &&& permute w ∧
    permute (v ^^^ w) = permute v ^^^ permute w)

/-- R97: `P` is `PERMUTE` in the translating variant and the identity in the plain one; it is applied to the value
of `SETDIGIT` and `SETROW` and nowhere else: the other commands send the same events whatever the variant. -/
def Obligations.PermuteIsAppliedToDigitContentOnly : Prop :=
  (∀ v : Byte, contentByte .translating v = permute v ∧ contentByte .plain v = v) ∧
  (∀ (w : Int) (v : Byte) (s : State) (d : Int), s.pending = [] → s.initialised = true → s.digitCount = some d →
    0 ≤ w → w ≤ d - 1 → ∀ i ∈ [Instr.setdigit w (v.toNat : Int), Instr.setrow w (v.toNat : Int)], ∃ t,
      exec i s = .next t ∧
      t.trace = s.trace ++ registerWrite s.params.tSettle (digitAddress w) (contentByte s.params.variant v)) ∧
  (∀ (i : Instr) (s t u : State) (x : Variant), (∀ w v, i ≠ .setdigit w v) → (∀ w v, i ≠ .setrow w v) →
    exec i s = .next t → exec i { s with params := { s.params with variant := x } } = .next u → u.trace = t.trace)

/-- R98: `SETDIGIT w, v` with `w` in `[0, DIGIT_COUNT - 1]` sends one frame to register `w + 1`, the value through `P`;
with any other `w` nothing at all happens; without `INIT` it is refused. -/
def Obligations.SetdigitWritesInRangeAndIgnoresTheRest : Prop :=
  (∀ (w : Int) (v : Byte) (s : State) (d : Int), s.pending = [] → s.initialised = true → s.digitCount = some d →
    d ≤ 8 → 0 ≤ w → w ≤ d - 1 → ∃ a : Byte, (a.toNat : Int) = w + 1 ∧
      exec (.setdigit w (v.toNat : Int)) s =
        .next { s with
          pin := { data := (contentByte s.params.variant v).getLsbD 0, clk := false, load := true }
          trace := s.trace ++ registerWrite s.params.tSettle a (contentByte s.params.variant v) }) ∧
  (∀ (w v : Int) (s : State) (d : Int), s.pending = [] → s.initialised = true → s.digitCount = some d →
    (w < 0 ∨ d ≤ w) → exec (.setdigit w v) s = .next s) ∧
  (∀ (w v : Int) (s : State), s.pending = [] → s.initialised = false →
    exec (.setdigit w v) s = .refused .notInitialised) ∧
  (∀ (m : AddrMap) (w : CmdWord), fieldZ w = 0#4 → fieldOp w = 6#4 →
    decode m (.cmd32 w) = .ok (.setdigit (fieldA w).toInt ((fieldB w).toNat : Int)))

/-- R101: the block accepts every index: in every state that meets the invariant, ready and initialised, no index is
refused or faults; an index outside `[0, DIGIT_COUNT - 1]` leaves the state as it is. -/
def Obligations.EveryDigitIndexIsAccepted : Prop :=
  ∀ (w v : Int) (s : State), Coherent s → s.pending = [] → s.initialised = true →
    ∃ d, s.digitCount = some d ∧ 1 ≤ d ∧ d ≤ 8 ∧
      (∃ t, exec (.setdigit w v) s = .next t) ∧ (∃ t, exec (.setrow w v) s = .next t) ∧
      (¬ (0 ≤ w ∧ w ≤ d - 1) → exec (.setdigit w v) s = .next s ∧ exec (.setrow w v) s = .next s)

/-- R99: `SETROW` is `SETDIGIT` under another name, for all states and operands; its encoding is `OP = 0111`. -/
def Obligations.SetrowIsSetdigit : Prop :=
  (∀ (w v : Int) (s : State), exec (.setrow w v) s = exec (.setdigit w v) s) ∧
  (∀ (m : AddrMap) (w : CmdWord), fieldZ w = 0#4 → fieldOp w = 7#4 →
    decode m (.cmd32 w) = .ok (.setrow (fieldA w).toInt ((fieldB w).toNat : Int)))

/-- R100: `CLEAR` writes 0 to the digit registers 1 to 8 in ascending order, 416 events, whatever the digit count and
the variant; afterwards `DATA` is low; nothing else changes; without `INIT` it is refused. -/
def Obligations.ClearWritesZeroToAllEightDigits : Prop :=
  (∀ s : State, s.pending = [] → s.initialised = true →
    exec .clear s =
      .next { s with
        pin := { data := false, clk := false, load := true }
        trace := s.trace ++
          [1, 2, 3, 4, 5, 6, 7, 8].flatMap (fun k => registerWrite s.params.tSettle (BitVec.ofNat 8 k) 0#8) }) ∧
  (∀ t : Nat, ([1, 2, 3, 4, 5, 6, 7, 8].flatMap (fun k => registerWrite t (BitVec.ofNat 8 k) 0#8)).length = 416) ∧
  (∀ s : State, s.pending = [] → s.initialised = false → exec .clear s = .refused .notInitialised) ∧
  (∀ (m : AddrMap) (w : CmdWord), fieldZ w = 0#4 → fieldOp w = 8#4 → decode m (.cmd32 w) = .ok .clear)

/-! ### Initialisation -/

/-- R110: `INIT n` completes from every ready state, initialised or not: it stores the clamped count, makes the three
pins outputs, raises `LOAD`, sends the thirteen frames in order and sets `INITIALISED`; the trace grows by 680 events;
`RESULT` is not written. -/
def Obligations.InitRunsItsWholeSequence : Prop :=
  (∀ (n : Int) (s : State), s.pending = [] →
    exec (.init n) s =
      .next { s with
        digitCount := some (clamp n 1 8)
        initialised := true
        dir := { data := .output, clk := .output, load := .output }
        pin := { data := false, clk := false, load := true }
        trace := s.trace ++
          ([.oe .data, .oe .clk, .oe .load, .w .load true]
            ++ registerWrite s.params.tSettle s.params.addrs.displayTest 0#8
            ++ registerWrite s.params.tSettle s.params.addrs.decodeMode 0#8
            ++ registerWrite s.params.tSettle s.params.addrs.scanLimit (BitVec.ofInt 8 (max (clamp n 1 8) 4 - 1))
            ++ registerWrite s.params.tSettle s.params.addrs.intensity 15#8
            ++ [1, 2, 3, 4, 5, 6, 7, 8].flatMap (fun k => registerWrite s.params.tSettle (BitVec.ofNat 8 k) 0#8)
            ++ registerWrite s.params.tSettle s.params.addrs.shutdown 0#8) }) ∧
  (∀ (n : Int) (s t : State), exec (.init n) s = .next t → t.trace.length = s.trace.length + 680) ∧
  (∀ (m : AddrMap) (w : CmdWord), fieldZ w = 0#4 → fieldOp w = 1#4 →
    decode m (.cmd32 w) = .ok (.init (fieldA w).toInt))

/-- R111: the stored count is 1 for `n < 1`, 8 for `n > 8`, and `n` otherwise, silently. -/
def Obligations.DigitCountIsClamped : Prop :=
  ∀ (n : Int) (s : State), s.pending = [] → ∃ t, exec (.init n) s = .next t ∧
    (n < 1 → t.digitCount = some 1) ∧ (8 < n → t.digitCount = some 8) ∧
    (1 ≤ n → n ≤ 8 → t.digitCount = some n)

/-- R112: the third frame of `INIT` goes to the scan-limit register with the value 3 for stored counts 1 to 4 and the
count less 1 for counts 5 to 8, hence always in 3..7. -/
def Obligations.ScanLimitIsCountLessOneButAtLeastThree : Prop :=
  ∀ (n : Int) (s : State), s.pending = [] → ∃ t d, ∃ x : Byte,
    exec (.init n) s = .next t ∧ t.digitCount = some d ∧
    ((t.trace.drop s.trace.length).drop 108).take 52 =
      registerWrite s.params.tSettle s.params.addrs.scanLimit x ∧
    (d ≤ 4 → x.toNat = 3) ∧ (5 ≤ d → (x.toNat : Int) = d - 1) ∧ 3 ≤ x.toNat ∧ x.toNat ≤ 7

/-- The table of 43_initialisation.md section 3: events 1 to 4 of `INIT n`, and register write `k` at events
`5 + 52 (k - 1)` to `4 + 52 k`. Only the third depends on `n`. -/
def Obligations.InitEventsByGroup : Prop :=
  ∀ (n : Int) (s t : State), exec (.init n) s = .next t →
    (t.trace.drop s.trace.length).length = 680 ∧
    (t.trace.drop s.trace.length).take 4 = [.oe .data, .oe .clk, .oe .load, .w .load true] ∧
    ∀ (k : Nat) (f : Byte × Byte), (initFrames s.params.addrs (clamp n 1 8))[k]? = some f →
      ((t.trace.drop s.trace.length).drop (4 + 52 * k)).take 52 = registerWrite s.params.tSettle f.1 f.2

/-- 70_reset_and_hazards.md, what `INIT` makes known: from a state not yet initialised, the register image after
`INIT n` holds exactly the thirteen addresses, with the values of the table, and nothing else. -/
def Obligations.InitMakesExactlyThirteenRegistersKnown : Prop :=
  ∀ (rx : BitVec 16) (n : Int) (s t : State), Coherent s → s.pending = [] → s.initialised = false →
    exec (.init n) s = .next t → ∀ a : Byte,
    t.imageAt rx a =
      if a = s.params.addrs.displayTest then some 0#8
      else if a = s.params.addrs.decodeMode then some 0#8
      else if a = s.params.addrs.scanLimit then some (BitVec.ofInt 8 (max (clamp n 1 8) 4 - 1))
      else if a = s.params.addrs.intensity then some 15#8
      else if a = s.params.addrs.shutdown then some 0#8
      else if 1 ≤ a.toNat ∧ a.toNat ≤ 8 then some 0#8
      else none

/-- R149: the first `INIT` after reset adds a latch with no clocks, then thirteen good frames; a repeated `INIT` adds
the thirteen good frames alone; the image ignores the latch without data. -/
def Obligations.FirstInitLatchesOnceWithoutData : Prop :=
  ∀ (rx : BitVec 16) (n : Int) (s t : State), Coherent s → s.pending = [] → exec (.init n) s = .next t →
    (s.initialised = false → ∃ a v, frameTrace rx t.trace =
      { n := 0, address := a, value := v } ::
        (initFrames s.params.addrs (clamp n 1 8)).map (fun f => { n := 16, address := f.1, value := f.2 })) ∧
    (s.initialised = true → frameTrace rx t.trace = frameTrace rx s.trace ++
      (initFrames s.params.addrs (clamp n 1 8)).map (fun f => { n := 16, address := f.1, value := f.2 })) ∧
    (∀ (a v : Byte) (fs : List Latch), imageOf ({ n := 0, address := a, value := v } :: fs) = imageOf fs)

/-! ### Wire frames -/

/-- A frame row's instruction is the register write that puts its 16 bits on the wires: it completes from every ready,
initialised state and leaves everything else as it was (30_encoding.md section 2, 40_serial_write.md section 1). That
a frame row is run as this register write is the model's choice (log entry 11). -/
def Obligations.FrameRowsSendTheirFrame : Prop :=
  ∀ s : State, s.pending = [] → s.initialised = true →
    let send := fun (a v : Byte) => (Host.Outcome.next { s with
      pin := { data := v.getLsbD 0, clk := false, load := true }
      trace := s.trace ++ registerWrite s.params.tSettle a v } : Host.Outcome State Fault Refusal)
    (∀ v, exec (.frDigit0 v) s = send 1#8 v ∧ exec (.frDigit1 v) s = send 2#8 v ∧
      exec (.frDigit2 v) s = send 3#8 v ∧ exec (.frDigit3 v) s = send 4#8 v ∧
      exec (.frDigit4 v) s = send 5#8 v ∧ exec (.frDigit5 v) s = send 6#8 v ∧
      exec (.frDigit6 v) s = send 7#8 v ∧ exec (.frDigit7 v) s = send 8#8 v) ∧
    exec .frDecode s = send s.params.addrs.decodeMode 0#8 ∧
    (∀ v, exec (.frIntensity v) s = send s.params.addrs.intensity (v.setWidth 8)) ∧
    (∀ v, exec (.frScanlimit v) s = send s.params.addrs.scanLimit (v.setWidth 8)) ∧
    (∀ v, exec (.frShutdown v) s = send s.params.addrs.shutdown (v.setWidth 8)) ∧
    (∀ v, exec (.frTest v) s = send s.params.addrs.displayTest (v.setWidth 8)) ∧
    (∀ a v, exec (.frRaw a v) s = send a v)

/-- A frame word handed over does what the `WRREG` of its address and value does, whichever row it belongs to: no word
of 16 bits is left out. The model's choice (log entry 11). -/
def Obligations.EveryFrameWordIsTheRegisterWriteOfItsBytes : Prop :=
  ∀ (s : State) (w : FrameWord), s.params.addrs.wf = true →
    ∃ i, decode s.params.addrs (.frame16 w) = .ok i ∧
      exec i s = exec (.wrreg ((frameAddress w).toNat : Int) ((frameValue w).toNat : Int)) s

/-! ### All instructions -/

/-- Once the block is initialised and ready, every instruction completes, whatever its operands: nothing is refused
and nothing faults (60_exceptions.md section 1). -/
def Obligations.EveryInstructionCompletesOnceInitialised : Prop :=
  ∀ (i : Instr) (s : State), Coherent s → s.pending = [] → s.initialised = true → ∃ t, exec i s = .next t

/-- R144: before `INIT`, each of the seven commands is refused, in every ready state, whatever its operands, and so is
the step of either level that would run it; `INIT` and `VERSION` are not. -/
def Obligations.CommandsBeforeInitAreRefused : Prop :=
  ∀ s : State, s.pending = [] → s.initialised = false →
    (∀ a v, exec (.wrreg a v) s = .refused .notInitialised) ∧
    (∀ f, exec (.enable f) s = .refused .notInitialised) ∧
    (∀ l, exec (.setint l) s = .refused .notInitialised) ∧
    (∀ f, exec (.test f) s = .refused .notInitialised) ∧
    (∀ w v, exec (.setdigit w v) s = .refused .notInitialised) ∧
    (∀ w v, exec (.setrow w v) s = .refused .notInitialised) ∧
    exec .clear s = .refused .notInitialised ∧
    (∀ n, ∃ t, exec (.init n) s = .next t) ∧ (∃ t, exec .version s = .next t) ∧
    (∀ (x : PortItem) (rest : List PortItem) (i : Instr), s.port = x :: rest → x.instr s.params.addrs = some i →
      (∃ a v, i = .wrreg a v) ∨ (∃ f, i = .enable f) ∨ (∃ l, i = .setint l) ∨ (∃ f, i = .test f) ∨
        (∃ w v, i = .setdigit w v) ∨ (∃ w v, i = .setrow w v) ∨ i = .clear →
      step s = .refused .notInitialised ∧ eventStep s = .refused .notInitialised)

/-- A wire frame too is refused before `INIT`, as the register write it is, and so is the step of either level that
would run it (log entry 11). -/
def Obligations.FramesBeforeInitAreRefused : Prop :=
  ∀ (s : State) (w : FrameWord), s.pending = [] → s.initialised = false →
    (∀ (m : AddrMap) (i : Instr), decode m (.frame16 w) = .ok i → exec i s = .refused .notInitialised) ∧
    (∀ rest, s.port = .code (.frame16 w) :: rest →
      step s = .refused .notInitialised ∧ eventStep s = .refused .notInitialised)

/-- The event counts of 10_state.md: every instruction adds 0, 52, 416 or 680 events, each by its own rule. -/
def Obligations.EveryCommandAddsItsNumberOfEvents : Prop :=
  ∀ (i : Instr) (s t : State), exec i s = .next t →
    (t.trace.length = s.trace.length + 0 ∨ t.trace.length = s.trace.length + 52 ∨
      t.trace.length = s.trace.length + 416 ∨ t.trace.length = s.trace.length + 680) ∧
    (i = .version → t.trace = s.trace) ∧
    (i = .clear → t.trace.length = s.trace.length + 416) ∧
    (∀ n, i = .init n → t.trace.length = s.trace.length + 680)

/-- The frame of every instruction, for what is not pins and trace: parameters, port and `PENDING` never change;
`DIGIT_COUNT`, `INITIALISED` and `DIR` change by `INIT` only; `RESULT` by `VERSION` only; by `VERSION` no pin and no
event; and the trace keeps what it had (10_state.md section 2). -/
def Obligations.InstructionsChangeOnlyTheirOwnState : Prop :=
  ∀ (i : Instr) (s t : State), exec i s = .next t →
    t.params = s.params ∧ t.port = s.port ∧ t.pending = s.pending ∧
    ((∀ n, i ≠ .init n) →
      t.digitCount = s.digitCount ∧ t.initialised = s.initialised ∧ t.dir = s.dir) ∧
    (i ≠ .version → t.result = s.result) ∧
    (i = .version → t.pin = s.pin ∧ t.trace = s.trace) ∧
    (∃ es, t.trace = s.trace ++ es)

/-- R17: `RESULT` is what the last `VERSION` returned: `VERSION` writes it, and no other command does. The host reads
it at the result port; before any `VERSION` R25 refuses that read (the refusal's name: log entry 1). -/
def Obligations.ResultIsWhatTheLastVersionReturned : Prop :=
  (∀ s t : State, exec .version s = .next t → readResult t = .next (versionNumber s.params)) ∧
  (∀ (i : Instr) (s t : State), i ≠ .version → exec i s = .next t → readResult t = readResult s) ∧
  (∀ p : Params, readResult (State.resetOf p) = .refused .resultUnspecified)

/-- R14: `OE(p)` makes a pin an output; only `INIT` emits `OE`, so only `INIT` changes a direction, and no command sets
a pin back to input. -/
def Obligations.OnlyInitTurnsPinsToOutputs : Prop :=
  (∀ (p q : Pin) (s : State), (perform (.oe p) s).dir.get p = .output ∧
    (q ≠ p → (perform (.oe p) s).dir.get q = s.dir.get q) ∧ (perform (.oe p) s).pin = s.pin) ∧
  (∀ (i : Instr) (s t : State), exec i s = .next t → ∀ p,
    (s.dir.get p = .output → t.dir.get p = .output) ∧
    ((∀ n, i ≠ .init n) → t.dir.get p = s.dir.get p ∧
      (t.trace.drop s.trace.length).all (fun e => decide (e ≠ .oe p)) = true))

/-- 10_state.md on the latches: `W(p, b)` sets one latch and no direction, and is recorded even when the level stays;
`D` changes no state; every event is the trace's last entry. -/
def Obligations.PinWritesSetOneLatch : Prop :=
  ∀ (p q : Pin) (b : Bool) (k : Nat) (s : State),
    (perform (.w p b) s).pin.get p = b ∧
    (q ≠ p → (perform (.w p b) s).pin.get q = s.pin.get q) ∧
    (perform (.w p b) s).dir = s.dir ∧
    (perform (.w p b) s).trace = s.trace ++ [.w p b] ∧
    perform (.d k) s = { s with trace := s.trace ++ [.d k] }

/-- R120, R121 and R144 over whole steps: from every state that meets the invariant a step of either level answers a
next state, or refuses with `notInitialised` while `INITIALISED = 0`; and it refuses exactly when what the host hands
over is an instruction other than `INIT` and `VERSION` before `INIT`. So a step never faults, and stops for no other
reason. That a wire frame counts among these instructions is the model's choice (log entry 11). -/
def Obligations.StepsStopOnlyBeforeInit : Prop :=
  ∀ s : State, Coherent s → ∀ f ∈ [step, eventStep],
    ((∃ t, f s = .next t) ∨ (f s = .refused .notInitialised ∧ s.initialised = false)) ∧
    (f s = .refused .notInitialised ↔
      s.pending = [] ∧ s.initialised = false ∧
      ∃ x rest i, s.port = x :: rest ∧ x.instr s.params.addrs = some i ∧ (∀ n, i ≠ .init n) ∧ i ≠ .version)

/-! ### What the attached chip is sent -/

/-- The expansion table of 30_encoding.md section 6: from an idle, initialised state the frame trace gains exactly the
register writes of the table, in order, each as a good frame. -/
def Obligations.FrameTraceFollowsTheExpansionTable : Prop :=
  ∀ (rx : BitVec 16) (i : Instr) (s t : State), Coherent s → s.pending = [] → s.initialised = true →
    exec i s = .next t →
    frameTrace rx t.trace = frameTrace rx s.trace ++
      (expansion s i).map (fun f => { n := 16, address := f.1, value := f.2 })

/-- The frame of every instruction at the register image (20_memory.md section 6): an address that is none of those the
instruction's register writes go to reads as before. -/
def Obligations.OtherRegistersOfTheImageAreUnchanged : Prop :=
  ∀ (rx : BitVec 16) (i : Instr) (s t : State) (b : Byte), Coherent s → s.pending = [] → s.initialised = true →
    exec i s = .next t → (∀ f ∈ expansion s i, b ≠ f.1) → t.imageAt rx b = s.imageAt rx b

/-- What the image reads as after each command, and after each wire frame (log entry 11), in an initialised state: at
the address its meaning computes the value sent, at every other address what was there; a digit index out of range, and
`VERSION`, store nothing. (`INIT` from a state not yet initialised: InitMakesExactlyThirteenRegistersKnown.) -/
def Obligations.WrittenRegistersReadAsWritten : Prop :=
  ∀ (rx : BitVec 16) (s t : State) (b : Byte), Coherent s → s.pending = [] → s.initialised = true →
    (∀ n, exec (.init n) s = .next t →
      t.imageAt rx b =
        if b = s.params.addrs.displayTest then some 0#8
        else if b = s.params.addrs.decodeMode then some 0#8
        else if b = s.params.addrs.scanLimit then some (BitVec.ofInt 8 (max (clamp n 1 8) 4 - 1))
        else if b = s.params.addrs.intensity then some 15#8
        else if b = s.params.addrs.shutdown then some 0#8
        else if 1 ≤ b.toNat ∧ b.toNat ≤ 8 then some 0#8
        else s.imageAt rx b) ∧
    (∀ a v, exec (.wrreg a v) s = .next t →
      t.imageAt rx b = if b = toByte a then some (toByte v) else s.imageAt rx b) ∧
    (∀ f, exec (.enable f) s = .next t →
      t.imageAt rx b = if b = s.params.addrs.shutdown then some (flagByte f) else s.imageAt rx b) ∧
    (∀ l, exec (.setint l) s = .next t →
      t.imageAt rx b = if b = s.params.addrs.intensity then some (intensityByte l) else s.imageAt rx b) ∧
    (∀ f, exec (.test f) s = .next t →
      t.imageAt rx b = if b = s.params.addrs.displayTest then some (flagByte f) else s.imageAt rx b) ∧
    (∀ w v d, s.digitCount = some d → exec (.setdigit w v) s = .next t →
      t.imageAt rx b =
        if indexInRange w d = true ∧ b = digitAddress w then some (contentByte s.params.variant (toByte v))
        else s.imageAt rx b) ∧
    (∀ w v d, s.digitCount = some d → exec (.setrow w v) s = .next t →
      t.imageAt rx b =
        if indexInRange w d = true ∧ b = digitAddress w then some (contentByte s.params.variant (toByte v))
        else s.imageAt rx b) ∧
    (exec .clear s = .next t →
      t.imageAt rx b = if 1 ≤ b.toNat ∧ b.toNat ≤ 8 then some 0#8 else s.imageAt rx b) ∧
    (exec .version s = .next t → t.imageAt rx b = s.imageAt rx b) ∧
    (∀ (w : FrameWord) (i : Instr), decode s.params.addrs (.frame16 w) = .ok i → exec i s = .next t →
      t.imageAt rx b = if b = frameAddress w then some (frameValue w) else s.imageAt rx b)

/-- The image is a partial map in one canonical form: reading an address just written gives the value, every other
address reads as before, an empty image lists nothing, and the image of every trace is well formed. The form is the model's
choice (log entry 16). -/
def Obligations.RegisterImageIsAWellFormedMap : Prop :=
  (∀ (m : Memory) (a b : Nat) (v : Byte), (m.write a v).read b = if b = a then some v else m.read b) ∧
  (∀ (m : Memory) (a : Nat) (v : Byte), Memory.wf m = true → a < 256 → Memory.wf (m.write a v) = true) ∧
  (∀ (rx : BitVec 16) (s : State), Memory.wf (s.image rx) = true) ∧
  (∀ (rx : BitVec 16) (p : Params), (State.resetOf p).image rx = [])

/-- The values the block's own commands send (30_encoding.md section 2), as the receiver takes them: what such a command
adds to the frame trace are good frames (and, at the first `INIT`, one latch without data), and in each of the frames the
value is 0..15 for the intensity register, 0 or 1 for the shutdown and display-test registers, 3..7 for the scan-limit
register, 0 for the decode-mode register, and the address is a digit's or one of the five. `WRREG` and the frames are
not commands of this kind: they carry their value. -/
def Obligations.OwnCommandsSendOnlyLegalValues : Prop :=
  ∀ (rx : BitVec 16) (i : Instr) (s t : State), Coherent s → s.pending = [] → exec i s = .next t →
    (∃ n, i = .init n) ∨ (∃ x, i = .enable x) ∨ (∃ l, i = .setint l) ∨ (∃ x, i = .test x) ∨
      (∃ w v, i = .setdigit w v) ∨ (∃ w v, i = .setrow w v) ∨ i = .clear ∨ i = .version →
    ∃ gained, frameTrace rx t.trace = frameTrace rx s.trace ++ gained ∧ ∀ l ∈ gained,
      (l.good = true ∨ (l.n = 0 ∧ s.initialised = false)) ∧
      (l.good = true →
        (l.address = s.params.addrs.intensity → l.value.toNat ≤ 15) ∧
        (l.address = s.params.addrs.shutdown → l.value.toNat ≤ 1) ∧
        (l.address = s.params.addrs.displayTest → l.value.toNat ≤ 1) ∧
        (l.address = s.params.addrs.scanLimit → 3 ≤ l.value.toNat ∧ l.value.toNat ≤ 7) ∧
        (l.address = s.params.addrs.decodeMode → l.value = 0#8) ∧
        (isDigitAddr l.address = true ∨ l.address ∈ s.params.addrs.all))

/-! ### Whole-machine rules -/

/-- R147: no instruction breaks the settling delays: where every `W(LOAD, 0)` of the trace is followed at once by a
delay of at least 5 microseconds and every `W(LOAD, 1)` that ends a frame is preceded at once by one, the same holds
after it. -/
def Obligations.SettlingDelaysAreKept : Prop :=
  ∀ (i : Instr) (s t : State), 5 ≤ s.params.tSettle → settled s.trace = true → exec i s = .next t →
    settled t.trace = true

/-- 70_reset_and_hazards.md on idle levels: after every instruction that completes in an initialised state with the
clock low and `LOAD` high, they are so again, and after `INIT` from any state. -/
def Obligations.IdleLevelsAreRestored : Prop :=
  (∀ (i : Instr) (s t : State), s.pin.clk = false → s.pin.load = true → exec i s = .next t →
    t.pin.clk = false ∧ t.pin.load = true) ∧
  (∀ (n : Int) (s t : State), exec (.init n) s = .next t → t.pin.clk = false ∧ t.pin.load = true)

/-- R19, R21: what a command that completes appends depends on its operands, the parameters and `DIGIT_COUNT` alone: two
states that agree there, however they were reached, get the same events. So two identical commands in a row send
identical frames. -/
def Obligations.EventsDependOnCountAndParametersOnly : Prop :=
  (∀ (i : Instr) (s s' t t' : State), s.params = s'.params → s.digitCount = s'.digitCount →
    exec i s = .next t → exec i s' = .next t' →
    t.trace.drop s.trace.length = t'.trace.drop s'.trace.length) ∧
  (∀ (i : Instr) (s t u : State), s.initialised = true → exec i s = .next t → exec i t = .next u →
    t.trace.drop s.trace.length = u.trace.drop t.trace.length)

/-- 10_state.md on `DIGIT_COUNT`: it is read by the index check of `SETDIGIT` and `SETROW` only (and inside `INIT`,
which has just written it): every other instruction does the same whatever count is stored. -/
def Obligations.OtherCommandsIgnoreDigitCount : Prop :=
  ∀ (i : Instr) (s t : State) (c : Option Int), (∀ w v, i ≠ .setdigit w v) → (∀ w v, i ≠ .setrow w v) →
    exec i s = .next t → ∃ u, exec i { s with digitCount := c } = .next u ∧ u.trace = t.trace ∧ u.pin = t.pin ∧
      u.result = t.result ∧ u.initialised = t.initialised ∧ u.dir = t.dir

/-- R2 in the form of 95_test_vectors.md property 8. `Twins s s'`: the states of two blocks that differ in the variant,
in levels of `DATA` and in the value of `RESULT` only. An instruction, and a whole step, completes in both twins or is
refused alike in both, and leaves twins, so that the claim carries on to the next command; the events an instruction
appends are the same in both, but for the value byte of the one frame of `SETDIGIT` or `SETROW`, which each block passes
through its own `P`. -/
def Obligations.VariantsDifferInDataLevelsOnly : Prop :=
  ∀ s s' : State, Twins s s' →
    (∀ i : Instr,
      (∀ t, exec i s = .next t → ∃ t', exec i s' = .next t' ∧ Twins t t' ∧ ∃ es es',
        t.trace = s.trace ++ es ∧ t'.trace = s'.trace ++ es' ∧
        (es' = es ∨ ∃ w v, (i = .setdigit w v ∨ i = .setrow w v) ∧
          es = registerWrite s.params.tSettle (digitAddress w) (contentByte s.params.variant (toByte v)) ∧
          es' = registerWrite s.params.tSettle (digitAddress w) (contentByte s'.params.variant (toByte v)))) ∧
      (∀ r, exec i s = .refused r → exec i s' = .refused r)) ∧
    (∀ t, step s = .next t → ∃ t', step s' = .next t' ∧ Twins t t') ∧
    (∀ r, step s = .refused r → step s' = .refused r)

/-- The invariant, kept by every step of the machine, from every state that meets it, in the middle of a command or
between two: the command in progress comes to a state whose latches and directions are what the trace makes them, whose
levels are idle and count in 1..8 once initialised, whose trace has all its settling delays, and whose frame trace holds
one latch without data and otherwise good frames only. -/
def Obligations.EveryStepKeepsTheInvariant : Prop :=
  ∀ s t : State, Coherent s → step s = .next t → Coherent t

/-- The same at the event level. -/
def Obligations.EveryEventStepKeepsTheInvariant : Prop :=
  ∀ s t : State, Coherent s → eventStep s = .next t → Coherent t

/-- The closing sentence of R7, the two levels give the same trace. From a ready state, a command performed event by
event comes, after one step to accept it and one for each event, to the very state the command level gives in one step;
and it is refused exactly when the command level refuses it. The number of steps rests on when the model does the state
updates (log entry 2). -/
def Obligations.EventLevelComesToTheCommandLevelState : Prop :=
  ∀ s : State, s.pending = [] →
    (∀ t, step s = .next t → eventRun (1 + (t.trace.length - s.trace.length)) s = .next t) ∧
    (∀ r, step s = .refused r ↔ eventStep s = .refused r)

/-- R16: a command accepted at the event level has done the state updates at the head of its list and no event, and
leaves the rest as `PENDING`; while `PENDING` is not empty each step performs the event at its head, which is appended to
the trace, and the state updates `us` that stand directly after it, and leaves the rest. Nothing else changes: the
parameters and the port are what `performAll` leaves them. That the updates are done together with the event before
them, or with the acceptance, is the model's choice (log entry 2). -/
def Obligations.PendingEventsArePerformedInOrder : Prop :=
  (∀ (i : Instr) (s t : State), accept (plan i s) s = .next t →
    ∃ us, plan i s = .ok (us ++ t.pending) ∧ (∀ a ∈ us, ∃ u, a = .update u) ∧
      t = { performAll us s with pending := t.pending } ∧ t.trace = s.trace ∧ t.pin = s.pin ∧ t.dir = s.dir ∧
      (t.pending = [] ∨ ∃ e as, t.pending = .event e :: as)) ∧
  (∀ (s : State) (e : Event) (as : List Action), s.pending = .event e :: as →
    ∃ t us, eventStep s = .next t ∧ as = us ++ t.pending ∧ (∀ a ∈ us, ∃ u, a = .update u) ∧
      t = { performAll us (perform e s) with pending := t.pending } ∧ t.trace = s.trace ++ [e] ∧
      t.pin = (perform e s).pin ∧ t.dir = (perform e s).dir ∧
      (t.pending = [] ∨ ∃ e' as', t.pending = .event e' :: as'))

/-! ### Power-on and launch -/

/-- R141: a reset while a command is being performed is refused; between commands it gives the reset state with the
parameters kept, at the port as well, whose other items stay (the model's choice, log entry 9). -/
def Obligations.PowerOnResetsOnlyBetweenCommands : Prop :=
  (∀ s : State, s.pending ≠ [] → powerOnReset s = .refused .resetDuringCommand) ∧
  (∀ s : State, s.pending = [] → powerOnReset s = .next { State.resetOf s.params with port := s.port }) ∧
  (∀ (s : State) (rest : List PortItem), s.pending = [] → s.port = .powerOn :: rest →
    step s = .next { State.resetOf s.params with port := rest })

/-- 60_exceptions.md section 7: a launch with a pin shared, with another driver or between two of the three, is
refused; a launch that goes through starts in the reset state with legal parameters (00_scope.md section 4,
41_configuration.md section 4; that it is refused otherwise is log entry 17). -/
def Obligations.LaunchWithSharedPinsIsRefused : Prop :=
  ∀ (p : Params) (others : List Nat),
    ((p.pinData = p.pinClk ∨ p.pinData = p.pinLoad ∨ p.pinClk = p.pinLoad ∨ p.pinData ∈ others ∨
        p.pinClk ∈ others ∨ p.pinLoad ∈ others) → launch p others = .refused .sharedPins) ∧
    (∀ s, launch p others = .next s → s = State.resetOf p ∧ p.wf = true) ∧
    (p.wf = true → p.pinData ∉ others → p.pinClk ∉ others → p.pinLoad ∉ others →
      launch p others = .next (State.resetOf p))
end

