-- ==== Sys2Proof/Laws/State.lean ====
section
/-! SUPPORT. What each update of the state leaves in each field. -/

namespace Sys2Proof.Machine

section pins
variable {α : Type} (f : Pins α) (x : α)

@[simp] theorem Pins.set_data : f.set .data x = { f with data := x } := rfl
@[simp] theorem Pins.set_clk : f.set .clk x = { f with clk := x } := rfl
@[simp] theorem Pins.set_load : f.set .load x = { f with load := x } := rfl

@[simp] theorem Pins.get_data : f.get .data = f.data := rfl
@[simp] theorem Pins.get_clk : f.get .clk = f.clk := rfl
@[simp] theorem Pins.get_load : f.get .load = f.load := rfl

@[simp] theorem Pins.get_set_same (p : Pin) : (f.set p x).get p = x := by cases p <;> rfl

theorem Pins.get_set_other {p q : Pin} (h : q ≠ p) : (f.set p x).get q = f.get q := by
  cases p <;> cases q <;> first | rfl | exact absurd rfl h

end pins

section updates
variable (n v : Int) (s : State)

@[simp] theorem applyUpdate_digitCount : applyUpdate (.digitCount n) s = { s with digitCount := some n } := rfl
@[simp] theorem applyUpdate_initialised : applyUpdate .initialised s = { s with initialised := true } := rfl
@[simp] theorem applyUpdate_result : applyUpdate (.result v) s = { s with result := some v } := rfl

variable (u : Update)

@[simp] theorem applyUpdate_params : (applyUpdate u s).params = s.params := by cases u <;> rfl
@[simp] theorem applyUpdate_dir : (applyUpdate u s).dir = s.dir := by cases u <;> rfl
@[simp] theorem applyUpdate_pin : (applyUpdate u s).pin = s.pin := by cases u <;> rfl
@[simp] theorem applyUpdate_pending : (applyUpdate u s).pending = s.pending := by cases u <;> rfl
@[simp] theorem applyUpdate_trace : (applyUpdate u s).trace = s.trace := by cases u <;> rfl
@[simp] theorem applyUpdate_port : (applyUpdate u s).port = s.port := by cases u <;> rfl

end updates

section events
variable (e : Event) (s : State)

@[simp] theorem perform_params : (perform e s).params = s.params := by cases e <;> rfl
@[simp] theorem perform_digitCount : (perform e s).digitCount = s.digitCount := by cases e <;> rfl
@[simp] theorem perform_initialised : (perform e s).initialised = s.initialised := by cases e <;> rfl
@[simp] theorem perform_pending : (perform e s).pending = s.pending := by cases e <;> rfl
@[simp] theorem perform_result : (perform e s).result = s.result := by cases e <;> rfl
@[simp] theorem perform_trace : (perform e s).trace = s.trace ++ [e] := by cases e <;> rfl
@[simp] theorem perform_port : (perform e s).port = s.port := by cases e <;> rfl

end events

section actions
variable (a : Action) (e : Event) (u : Update) (s : State)

@[simp] theorem act_event : act (.event e) s = perform e s := rfl
@[simp] theorem act_update : act (.update u) s = applyUpdate u s := rfl
@[simp] theorem act_params : (act a s).params = s.params := by cases a <;> simp
@[simp] theorem act_pending : (act a s).pending = s.pending := by cases a <;> simp
@[simp] theorem act_port : (act a s).port = s.port := by cases a <;> simp

/-- No action reads `PENDING` or the port. -/
theorem act_setPending (p : List Action) :
    act a { s with pending := p } = { act a s with pending := p } := by
  cases a with
  | event e => cases e <;> rfl
  | update u => cases u <;> rfl

end actions

section reset
variable (p : Params)

@[simp] theorem resetOf_params : (State.resetOf p).params = p := rfl
@[simp] theorem resetOf_digitCount : (State.resetOf p).digitCount = none := rfl
@[simp] theorem resetOf_initialised : (State.resetOf p).initialised = false := rfl
@[simp] theorem resetOf_pending : (State.resetOf p).pending = [] := rfl
@[simp] theorem resetOf_result : (State.resetOf p).result = none := rfl
@[simp] theorem resetOf_trace : (State.resetOf p).trace = [] := rfl
@[simp] theorem resetOf_port : (State.resetOf p).port = [] := rfl

end reset

end Sys2Proof.Machine
end

