-- ==== Sys2Proof/Laws/Operands.lean ====
section
/-! SUPPORT. What the operand forms compute. -/

namespace Sys2Proof.Machine

/-- A byte made of an integer is that integer mod 256 (R77). -/
theorem toByte_toNat (n : Int) : ((toByte n).toNat : Int) = n % 256 := by
  have h := BitVec.toNat_ofInt (n := 8) n
  simp only [toByte]
  omega

theorem toByte_of_range {n : Int} (h0 : 0 ≤ n) (h1 : n ≤ 255) : ((toByte n).toNat : Int) = n := by
  rw [toByte_toNat]
  omega

/-- The clamped count lies in 1..8 (R111). -/
theorem effectiveCount_range (n : Int) : 1 ≤ effectiveCount n ∧ effectiveCount n ≤ 8 := by
  unfold effectiveCount clamp
  split
  · omega
  · split <;> omega

@[simp] theorem flagByte_zero : flagByte 0 = 0#8 := rfl

theorem flagByte_of_ne {f : Int} (h : f ≠ 0) : flagByte f = 1#8 := by simp [flagByte, h]

/-- The three cases of the intensity law (R87). -/
theorem intensityByte_cases (l : Int) :
    (l ≤ 0 → intensityByte l = 0#8) ∧
    (1 ≤ l → l ≤ 16 → intensityByte l = toByte (l - 1)) ∧
    (16 < l → intensityByte l = 15#8) := by
  refine ⟨fun h => by simp [intensityByte, h], fun h1 h2 => ?_, fun h => ?_⟩
  · have : ¬ l ≤ 0 := by omega
    have : ¬ 16 < l := by omega
    simp [intensityByte, *]
  · have : ¬ l ≤ 0 := by omega
    simp [intensityByte, *]

theorem indexInRange_iff (w count : Int) : indexInRange w count = true ↔ 0 ≤ w ∧ w ≤ count - 1 := by
  simp [indexInRange]

theorem digitFrames_in {x : Variant} {count w v : Int} (h : 0 ≤ w ∧ w ≤ count - 1) :
    digitFrames x count w v = [(digitAddress w, contentByte x (toByte v))] := by
  simp [digitFrames, indexInRange, h]

theorem digitFrames_out {x : Variant} {count w v : Int} (h : ¬ (0 ≤ w ∧ w ≤ count - 1)) :
    digitFrames x count w v = [] := by
  simp [digitFrames, indexInRange]
  omega

end Sys2Proof.Machine
end

