-- ==== Sys2Proof/Laws/Ops.lean ====
section
/-! SUPPORT. What the shared operations can do: running a list of actions, the register write, and the two levels. -/

namespace Sys2Proof.Machine

/-! ### Running a list of actions -/

@[simp] theorem performAll_nil (s : State) : performAll [] s = s := rfl

@[simp] theorem performAll_cons (a : Action) (as : List Action) (s : State) :
    performAll (a :: as) s = performAll as (act a s) := rfl

theorem performAll_append (as bs : List Action) (s : State) :
    performAll (as ++ bs) s = performAll bs (performAll as s) := by
  induction as generalizing s with
  | nil => rfl
  | cons a as ih => simp [ih]

@[simp] theorem performAll_params (as : List Action) (s : State) : (performAll as s).params = s.params := by
  induction as generalizing s with
  | nil => rfl
  | cons a as ih => simp [ih]

@[simp] theorem performAll_pending (as : List Action) (s : State) : (performAll as s).pending = s.pending := by
  induction as generalizing s with
  | nil => rfl
  | cons a as ih => simp [ih]

@[simp] theorem performAll_port (as : List Action) (s : State) : (performAll as s).port = s.port := by
  induction as generalizing s with
  | nil => rfl
  | cons a as ih => simp [ih]

/-- Running a list neither reads nor writes `PENDING`. -/
theorem performAll_setPending (as : List Action) (s : State) (p : List Action) :
    performAll as { s with pending := p } = { performAll as s with pending := p } := by
  induction as generalizing s with
  | nil => rfl
  | cons a as ih => rw [performAll_cons, act_setPending, ih, performAll_cons]

/-- The events of a list of actions. -/
def eventsOf (as : List Action) : List Event :=
  as.filterMap (fun a => match a with | .event e => some e | .update _ => none)

@[simp] theorem eventsOf_nil : eventsOf [] = [] := rfl
@[simp] theorem eventsOf_event (e : Event) (as : List Action) : eventsOf (.event e :: as) = e :: eventsOf as := rfl
@[simp] theorem eventsOf_update (u : Update) (as : List Action) : eventsOf (.update u :: as) = eventsOf as := rfl

theorem eventsOf_append (as bs : List Action) : eventsOf (as ++ bs) = eventsOf as ++ eventsOf bs :=
  List.filterMap_append

@[simp] theorem eventsOf_events (es : List Event) : eventsOf (events es) = es := by
  induction es with
  | nil => rfl
  | cons e es ih => simpa [events] using ih

/-- The trace grows by exactly the events of the list (R16, R20). -/
theorem performAll_trace (as : List Action) (s : State) :
    (performAll as s).trace = s.trace ++ eventsOf as := by
  induction as generalizing s with
  | nil => simp
  | cons a as ih => cases a <;> simp [ih]

/-- The latches after a list of events. -/
def pinAfter (f : Pins Bool) (es : List Event) : Pins Bool :=
  es.foldl (fun g e => match e with | .w p b => g.set p b | _ => g) f

/-- The directions after a list of events. -/
def dirAfter (f : Pins Dir) (es : List Event) : Pins Dir :=
  es.foldl (fun g e => match e with | .oe p => g.set p .output | _ => g) f

theorem pinAfter_append (f : Pins Bool) (xs ys : List Event) :
    pinAfter f (xs ++ ys) = pinAfter (pinAfter f xs) ys := List.foldl_append

theorem dirAfter_append (f : Pins Dir) (xs ys : List Event) :
    dirAfter f (xs ++ ys) = dirAfter (dirAfter f xs) ys := List.foldl_append

/-- A list of events changes the pins and the trace, and nothing else. -/
theorem performAll_events (es : List Event) (s : State) :
    performAll (events es) s =
      { s with dir := dirAfter s.dir es, pin := pinAfter s.pin es, trace := s.trace ++ es } := by
  induction es generalizing s with
  | nil => simp [events, dirAfter, pinAfter]
  | cons e es ih =>
    have h : performAll (events (e :: es)) s = performAll (events es) (perform e s) := rfl
    rw [h, ih]
    cases e <;> simp [perform, dirAfter, pinAfter]

/-! ### The register write -/

@[simp] theorem shift8_length (x : Byte) : (shift8 x).length = 24 := rfl

/-- One frame is 52 events (R70). -/
@[simp] theorem registerWrite_length (t : Nat) (a v : Byte) : (registerWrite t a v).length = 52 := rfl

/-- The latches after a frame (R76). -/
theorem pinAfter_registerWrite (f : Pins Bool) (t : Nat) (a v : Byte) :
    pinAfter f (registerWrite t a v) = { data := v.getLsbD 0, clk := false, load := true } := rfl

/-- A frame enables no pin (R14). -/
theorem dirAfter_registerWrite (f : Pins Dir) (t : Nat) (a v : Byte) :
    dirAfter f (registerWrite t a v) = f := rfl

@[simp] theorem registerWrites_nil (t : Nat) : registerWrites t [] = [] := rfl

@[simp] theorem registerWrites_cons (t : Nat) (f : Byte × Byte) (fs : List (Byte × Byte)) :
    registerWrites t (f :: fs) = registerWrite t f.1 f.2 ++ registerWrites t fs := rfl

theorem registerWrites_append (t : Nat) (fs gs : List (Byte × Byte)) :
    registerWrites t (fs ++ gs) = registerWrites t fs ++ registerWrites t gs := List.flatMap_append

theorem registerWrites_length (t : Nat) (fs : List (Byte × Byte)) :
    (registerWrites t fs).length = 52 * fs.length := by
  induction fs with
  | nil => rfl
  | cons f fs ih => simp [ih]; omega

theorem dirAfter_registerWrites (g : Pins Dir) (t : Nat) (fs : List (Byte × Byte)) :
    dirAfter g (registerWrites t fs) = g := by
  induction fs with
  | nil => rfl
  | cons f fs ih => rw [registerWrites_cons, dirAfter_append, dirAfter_registerWrite, ih]

/-- The latches after several frames are those after the last one (R76). -/
theorem pinAfter_registerWrites (g : Pins Bool) (t : Nat) (fs : List (Byte × Byte)) (a v : Byte) :
    pinAfter g (registerWrites t (fs ++ [(a, v)])) = { data := v.getLsbD 0, clk := false, load := true } := by
  rw [registerWrites_append, pinAfter_append]
  simp [pinAfter_registerWrite]

/-- From idle levels, register writes leave the clock low and `LOAD` high (R152). -/
theorem pinAfter_registerWrites_idle (g : Pins Bool) (t : Nat) (fs : List (Byte × Byte))
    (hc : g.clk = false) (hl : g.load = true) :
    (pinAfter g (registerWrites t fs)).clk = false ∧ (pinAfter g (registerWrites t fs)).load = true := by
  induction fs generalizing g with
  | nil => exact ⟨hc, hl⟩
  | cons f fs ih =>
    rw [registerWrites_cons, pinAfter_append, pinAfter_registerWrite]
    exact ih _ rfl rfl

/-! ### The command level -/

theorem ready_iff (s : State) : s.ready = true ↔ s.pending = [] := by
  simp [State.ready]

/-- The meaning of an instruction is its plan, run to completion. -/
theorem exec_eq_complete (i : Instr) (s : State) : exec i s = complete (plan i s) s := by
  cases i <;> rfl

theorem complete_ok (as : List Action) (s : State) (h : s.pending = []) :
    complete (.ok as) s = .next (performAll as s) := by
  simp [complete, State.ready, h]

theorem complete_error (r : Refusal) (s : State) (h : s.pending = []) :
    complete (.error r) s = .refused r := by
  simp [complete, State.ready, h]

/-- A command completes exactly when the block is ready and its plan has actions; it then runs them. -/
theorem complete_next {p : Except Refusal (List Action)} {s t : State} :
    complete p s = .next t ↔ s.pending = [] ∧ ∃ as, p = .ok as ∧ t = performAll as s := by
  unfold complete State.ready
  cases p <;> cases h : s.pending <;> simp [eq_comm]

theorem exec_next {i : Instr} {s t : State} :
    exec i s = .next t ↔ s.pending = [] ∧ ∃ as, plan i s = .ok as ∧ t = performAll as s := by
  rw [exec_eq_complete, complete_next]

/-- The actions of a command that only sends frames. -/
theorem sendFrames_ok (s : State) (fs : List (Byte × Byte)) (h : s.initialised = true) :
    sendFrames s fs = .ok (events (registerWrites s.params.tSettle fs)) := by
  simp [sendFrames, requireInitialised, h]

theorem sendFrames_error (s : State) (fs : List (Byte × Byte)) (h : s.initialised = false) :
    sendFrames s fs = .error .notInitialised := by
  simp [sendFrames, requireInitialised, h]

/-- A command that sends frames completes from every ready, initialised state. -/
theorem complete_sendFrames (s : State) (fs : List (Byte × Byte)) (hp : s.pending = []) (hi : s.initialised = true) :
    complete (sendFrames s fs) s =
      .next { s with
        pin := pinAfter s.pin (registerWrites s.params.tSettle fs)
        trace := s.trace ++ registerWrites s.params.tSettle fs } := by
  rw [sendFrames_ok s fs hi, complete_ok _ s hp, performAll_events, dirAfter_registerWrites]

/-- A command that sends one frame completes so (R70, R76). -/
theorem complete_sendFrame (s : State) (a v : Byte) (hp : s.pending = []) (hi : s.initialised = true) :
    complete (sendFrames s [(a, v)]) s =
      .next { s with
        pin := { data := v.getLsbD 0, clk := false, load := true }
        trace := s.trace ++ registerWrite s.params.tSettle a v } := by
  rw [complete_sendFrames s _ hp hi]
  simp [pinAfter_registerWrite]

/-! ### The event level -/

/-- Accepting a list and finishing what is pending is running the list. -/
theorem settle_finish (as : List Action) (s : State) :
    (settle as s).finish = performAll as { s with pending := [] } := by
  induction as generalizing s with
  | nil => rfl
  | cons a as ih =>
    cases a with
    | event e => simp [settle, State.finish]
    | update u =>
      rw [settle, ih, performAll_cons]
      exact congrArg (performAll as) (act_setPending (.update u) s []).symm

/-- Performing the next event does not change where a command comes to (R16). -/
theorem performNext_finish (s : State) : (performNext s).finish = s.finish := by
  unfold performNext
  cases h : s.pending with
  | nil => rfl
  | cons a as =>
    simp only
    rw [settle_finish, State.finish, h]
    exact congrArg (performAll as) (act_setPending a s []).symm

theorem finish_of_ready (s : State) (h : s.pending = []) : s.finish = s := by
  cases s
  simp only at h
  subst h
  rfl

@[simp] theorem finish_pending (s : State) : s.finish.pending = [] := by
  simp [State.finish]

end Sys2Proof.Machine
end

