-- ==== Sys2Proof/Laws/Receiver.lean ====
section
/-! SUPPORT. What the reference receiver makes of a frame (R44, R46), and the laws of the register image (R45). -/

namespace Sys2Proof.Machine

theorem takeAll_nil (r : Receiver) : r.takeAll [] = r := rfl

theorem takeAll_cons (r : Receiver) (e : Event) (es : List Event) : r.takeAll (e :: es) = (r.take e).takeAll es := rfl

theorem takeAll_append (r : Receiver) (xs ys : List Event) :
    r.takeAll (xs ++ ys) = (r.takeAll xs).takeAll ys := List.foldl_append

theorem receive_append (rx : BitVec 16) (t es : List Event) :
    receive rx (t ++ es) = (receive rx t).takeAll es := takeAll_append _ t es

/-- The latches the receiver sees are those the events make. -/
theorem takeAll_pin (r : Receiver) (es : List Event) : (r.takeAll es).pin = pinAfter r.pin es := by
  induction es generalizing r with
  | nil => rfl
  | cons e es ih =>
    rw [takeAll_cons, ih]
    have h : (r.take e).pin = pinAfter r.pin [e] := by
      cases e with
      | w p b => cases p <;> cases b <;> rfl
      | oe p => rfl
      | d t => rfl
    rw [h, ← pinAfter_append]
    rfl

/-- The directions the receiver sees are those the events make. -/
theorem takeAll_dir (r : Receiver) (es : List Event) : (r.takeAll es).dir = dirAfter r.dir es := by
  induction es generalizing r with
  | nil => rfl
  | cons e es ih =>
    rw [takeAll_cons, ih]
    have h : (r.take e).dir = dirAfter r.dir [e] := by
      cases e with
      | w p b =>
        cases p <;> cases b <;>
          first
            | rfl
            | (simp only [Receiver.take, Receiver.clockUp, dirAfter, List.foldl]; split <;> rfl)
            | (simp only [Receiver.take, Receiver.loadUp, dirAfter, List.foldl]; split <;> rfl)
      | oe p => rfl
      | d t => rfl
    rw [h, ← dirAfter_append]
    rfl

/-! ### One frame -/

/-- One bit at the receiver: the clock edge takes it (R44, R71). -/
theorem takeAll_shiftBit (r : Receiver) (b : Bool) (hd : r.dir.clk = .output) (hc : r.pin.clk = false) :
    r.takeAll (shiftBit b) =
      { r with pin := { r.pin with data := b }, rxsr := shiftIn r.rxsr b, nclk := r.nclk + 1 } := by
  obtain ⟨dir, ⟨pd, pc, pl⟩, rxsr, nclk, frames⟩ := r
  simp only at hd hc
  subst hc
  cases b <;> simp [shiftBit, Receiver.takeAll, Receiver.take, Receiver.clockUp, hd]

/-- A list of bits at the receiver, each taken by its own clock edge. -/
theorem takeAll_bits (r : Receiver) (bs : List Bool) (hd : r.dir.clk = .output) (hc : r.pin.clk = false) :
    r.takeAll (bs.flatMap shiftBit) =
      { r with
        pin := { r.pin with data := bs.getLastD r.pin.data }
        rxsr := bs.foldl shiftIn r.rxsr
        nclk := r.nclk + bs.length } := by
  induction bs generalizing r with
  | nil => rfl
  | cons b bs ih =>
    rw [List.flatMap_cons, takeAll_append, takeAll_shiftBit r b hd hc]
    refine (ih _ (by exact hd) (by exact hc)).trans ?_
    simp only [List.foldl_cons, List.length_cons, List.getLastD_cons, Receiver.mk.injEq, true_and, and_true]
    omega

/-- The bits of a byte in the order `SHIFT8` sends them (R71). -/
def bitsOf (v : Byte) : List Bool :=
  [v.getLsbD 7, v.getLsbD 6, v.getLsbD 5, v.getLsbD 4, v.getLsbD 3, v.getLsbD 2, v.getLsbD 1, v.getLsbD 0]

/-- A byte shifted into the receiver's register, bit 7 first. -/
def shiftIn8 (x : BitVec 16) (v : Byte) : BitVec 16 := (bitsOf v).foldl shiftIn x

/-- One byte at the receiver (R71). -/
theorem takeAll_shift8 (r : Receiver) (v : Byte) (hd : r.dir.clk = .output) (hc : r.pin.clk = false) :
    r.takeAll (shift8 v) =
      { r with pin := { r.pin with data := v.getLsbD 0 }, rxsr := shiftIn8 r.rxsr v, nclk := r.nclk + 8 } :=
  takeAll_bits r (bitsOf v) hd hc

theorem getLsbD_shiftIn (x : BitVec 16) (b : Bool) (i : Nat) :
    (shiftIn x b).getLsbD i = if i = 0 then b else (decide (i < 16) && x.getLsbD (i - 1)) := by
  have h : (shiftIn x b).getLsbD i =
      if i < 1 then (BitVec.ofBool b).getLsbD i else (x.extractLsb' 0 15).getLsbD (i - 1) := BitVec.getLsbD_append
  rw [h]
  by_cases h0 : i = 0
  · subst h0; simp
  · have h1 : (i - 1 < 15) = (i < 16) := propext (by omega)
    simp [h0, h1]

/-- Bit by bit, a frame is its value byte below its address byte (R51). -/
theorem getLsbD_frameWord (a v : Byte) (i : Nat) :
    (frameWord a v).getLsbD i = if i < 8 then v.getLsbD i else a.getLsbD (i - 8) := BitVec.getLsbD_append

theorem frameAddress_frameWord (a v : Byte) : (frameWord a v).extractLsb' 8 8 = a := by
  apply BitVec.eq_of_getLsbD_eq
  intro i hi
  rw [BitVec.getLsbD_extractLsb', getLsbD_frameWord]
  simp [hi]

theorem frameValue_frameWord (a v : Byte) : (frameWord a v).extractLsb' 0 8 = v := by
  apply BitVec.eq_of_getLsbD_eq
  intro i hi
  rw [BitVec.getLsbD_extractLsb', getLsbD_frameWord]
  simp [hi]

/-- After two bytes the register holds exactly those (R51). -/
theorem shiftIn8_shiftIn8 (x : BitVec 16) (a v : Byte) : shiftIn8 (shiftIn8 x a) v = frameWord a v := by
  apply BitVec.eq_of_getLsbD_eq
  intro i hi
  rw [getLsbD_frameWord]
  simp only [shiftIn8, bitsOf, List.foldl]
  interval_cases i <;> simp only [getLsbD_shiftIn] <;> rfl

/-- One register write, from idle levels with all pins driven, adds exactly one entry to the frame trace, and it is
`Latch(16, address, value)` (R46). -/
theorem takeAll_registerWrite (r : Receiver) (t : Nat) (a v : Byte)
    (hd : r.dir = { data := .output, clk := .output, load := .output })
    (hc : r.pin.clk = false) (hn : r.nclk = 0) :
    r.takeAll (registerWrite t a v) =
      { r with
        pin := { data := v.getLsbD 0, clk := false, load := true }
        rxsr := frameWord a v
        nclk := 0
        frames := r.frames ++ [{ n := 16, address := a, value := v }] } := by
  obtain ⟨dir, ⟨pd, pc, pl⟩, rxsr, nclk, frames⟩ := r
  simp only at hd hc hn
  subst hd hc hn
  simp only [registerWrite, takeAll_append]
  rw [takeAll_shift8 _ _ (by rfl) (by rfl)]
  rw [takeAll_shift8 _ _ (by rfl) (by rfl)]
  simp only [Receiver.takeAll, List.foldl, Receiver.take, Pins.set_load, shiftIn8_shiftIn8]
  simp [Receiver.loadUp, frameAddress_frameWord, frameValue_frameWord]

/-- The entries of the frame trace that register writes make (R46). -/
def latchesOf (fs : List (Byte × Byte)) : List Latch :=
  fs.map (fun f => { n := 16, address := f.1, value := f.2 })

theorem latchesOf_good (fs : List (Byte × Byte)) : ∀ l ∈ latchesOf fs, l.good = true := by
  intro l h
  obtain ⟨f, _, rfl⟩ := List.mem_map.1 h
  rfl

/-- Several register writes at the receiver: one good frame each, in order (R39, R46). -/
theorem takeAll_registerWrites (r : Receiver) (t : Nat) (fs : List (Byte × Byte))
    (hd : r.dir = { data := .output, clk := .output, load := .output })
    (hc : r.pin.clk = false) (hn : r.nclk = 0) :
    (r.takeAll (registerWrites t fs)).frames = r.frames ++ latchesOf fs ∧
      (r.takeAll (registerWrites t fs)).nclk = 0 := by
  induction fs generalizing r with
  | nil => simpa [takeAll_nil, latchesOf] using hn
  | cons f fs ih =>
    rw [registerWrites_cons, takeAll_append, takeAll_registerWrite r t f.1 f.2 hd hc hn]
    obtain ⟨h1, h2⟩ := ih { r with
      pin := { data := f.2.getLsbD 0, clk := false, load := true }, rxsr := frameWord f.1 f.2, nclk := 0
      frames := r.frames ++ [{ n := 16, address := f.1, value := f.2 }] } hd rfl rfl
    refine ⟨?_, h2⟩
    rw [h1]
    simp [latchesOf]

/-! ### The register image -/

theorem Memory.read_write_same (m : Memory) (a : Nat) (v : Byte) : (m.write a v).read a = some v := by
  induction m with
  | nil => simp [Memory.write, Memory.read]
  | cons c m ih =>
    unfold Memory.write
    split
    · simp [Memory.read]
    · split
      · simp [Memory.read]
      · rename_i h
        simp [Memory.read, ih, Ne.symm h]

theorem Memory.read_write_other (m : Memory) {a b : Nat} (v : Byte) (h : b ≠ a) :
    (m.write a v).read b = m.read b := by
  induction m with
  | nil => simp [Memory.write, Memory.read, Ne.symm h]
  | cons c m ih =>
    unfold Memory.write
    split
    · simp [Memory.read, Ne.symm h]
    · split
      · rename_i h1
        subst h1
        simp [Memory.read, Ne.symm h]
      · simp [Memory.read, ih]

theorem Memory.wf_tail {c : Host.Cell} {m : Memory} (h : Memory.wf (c :: m) = true) : Memory.wf m = true := by
  cases m with
  | nil => rfl
  | cons d m => simp [Memory.wf] at h; exact h.2

theorem Memory.wf_head {c : Host.Cell} {m : Memory} (h : Memory.wf (c :: m) = true) : c.1 < 256 := by
  induction m generalizing c with
  | nil => simpa [Memory.wf] using h
  | cons d m ih =>
    simp [Memory.wf] at h
    have := ih h.2
    omega

/-- A list whose head lies below a well-formed image is well formed. -/
theorem Memory.wf_cons {c : Host.Cell} {m : Memory} (hc : c.1 < 256) (hm : Memory.wf m = true)
    (h : ∀ d ∈ m.head?, c.1 < d.1) : Memory.wf (c :: m) = true := by
  cases m with
  | nil => simpa [Memory.wf] using hc
  | cons d m =>
    have := h d (by simp)
    simp [Memory.wf, this, hm]

theorem Memory.head?_write (m : Memory) (a : Nat) (v : Byte) :
    ∀ d ∈ (m.write a v).head?, d.1 = a ∨ ∃ c ∈ m.head?, d.1 = c.1 := by
  cases m with
  | nil => simp [Memory.write]
  | cons c m =>
    intro d hd
    unfold Memory.write at hd
    split at hd
    · simp at hd; subst hd; exact .inl rfl
    · split at hd
      · simp at hd; subst hd; exact .inl rfl
      · simp at hd; subst hd; exact .inr ⟨c, by simp, rfl⟩

/-- Every write keeps the canonical form. -/
theorem Memory.wf_write (m : Memory) (a : Nat) (v : Byte) (hm : Memory.wf m = true) (ha : a < 256) :
    Memory.wf (m.write a v) = true := by
  induction m with
  | nil => simpa [Memory.write, Memory.wf] using ha
  | cons c m ih =>
    have hc := Memory.wf_head hm
    have ht := Memory.wf_tail hm
    have hh : ∀ d ∈ m.head?, c.1 < d.1 := by
      intro d hd
      cases m with
      | nil => simp at hd
      | cons e m => simp at hd; subst hd; simp [Memory.wf] at hm; exact hm.1
    unfold Memory.write
    split
    · rename_i h
      exact Memory.wf_cons ha hm (by intro d hd; simp at hd; subst hd; exact h)
    · split
      · rename_i h1 h2
        exact Memory.wf_cons ha ht (by intro d hd; have := hh d hd; simp only; omega)
      · rename_i h1 h2
        refine Memory.wf_cons hc (ih ht) ?_
        intro d hd
        rcases Memory.head?_write m a v d hd with h | ⟨e, he, h⟩
        · omega
        · have := hh e he; omega

theorem Latch.applyTo_wf (l : Latch) (m : Memory) (h : Memory.wf m = true) : Memory.wf (l.applyTo m) = true := by
  unfold Latch.applyTo
  split
  · exact Memory.wf_write m _ _ h l.address.isLt
  · exact h

theorem imageOf_append (xs ys : List Latch) :
    imageOf (xs ++ ys) = ys.foldl (fun m l => l.applyTo m) (imageOf xs) := List.foldl_append

theorem foldl_applyTo_wf (fs : List Latch) (m : Memory) (h : Memory.wf m = true) :
    Memory.wf (fs.foldl (fun m l => l.applyTo m) m) = true := by
  induction fs generalizing m with
  | nil => exact h
  | cons l fs ih => exact ih _ (l.applyTo_wf m h)

/-- Every register image is in the canonical form. -/
theorem imageOf_wf (fs : List Latch) : Memory.wf (imageOf fs) = true :=
  foldl_applyTo_wf fs [] rfl

/-- A frame written last is what its address reads as, and no other address changes (R45). -/
theorem imageOf_snoc_good (fs : List Latch) (a v : Byte) :
    imageOf (fs ++ [{ n := 16, address := a, value := v }]) = (imageOf fs).write a.toNat v := by
  rw [imageOf_append]
  rfl

end Sys2Proof.Machine
end

