-- ==== Sys2Proof/Laws/Safety.lean ====
section
/-! SUPPORT. The settling delays along a trace, and what frames and `INIT` make of an idle state. -/

namespace Sys2Proof.Machine

/-! ### Settling delays -/

/-- R147 of two lists one after another. -/
theorem settledAfter_append {p : Option Event} {xs ys : List Event} (hx : settledAfter p xs = true)
    (hy : ∀ q, q ≠ some (.w .load false) → settledAfter q ys = true) : settledAfter p (xs ++ ys) = true := by
  induction xs generalizing p with
  | nil => exact hy p (by simpa [settledAfter] using hx)
  | cons x xs ih =>
    simp only [settledAfter, Bool.and_eq_true] at hx
    simp only [List.cons_append, settledAfter, Bool.and_eq_true]
    exact ⟨hx.1, ih hx.2⟩

/-- A bit asks for nothing and leaves nothing to ask for (R71). -/
theorem settledAfter_bits (bs : List Bool) (q : Option Event) (h : q ≠ some (.w .load false)) :
    settledAfter q (bs.flatMap shiftBit) = true := by
  induction bs generalizing q with
  | nil => simpa [settledAfter] using h
  | cons b bs ih =>
    rw [List.flatMap_cons]
    exact settledAfter_append (by simp [shiftBit, settledAfter, followsWell, h]) ih

/-- A frame has its two settling delays (R73). -/
theorem settledAfter_registerWrite {t : Nat} (ht : 5 ≤ t) (a v : Byte) (q : Option Event)
    (h : q ≠ some (.w .load false)) : settledAfter q (registerWrite t a v) = true := by
  have hb : registerWrite t a v =
      [.w .load false, .d t] ++ ((bitsOf a ++ bitsOf v).flatMap shiftBit ++ [.d t, .w .load true]) := rfl
  rw [hb]
  refine settledAfter_append (by simp [settledAfter, followsWell, isSettling, h, ht]) fun q hq => ?_
  refine settledAfter_append (settledAfter_bits _ q hq) fun q hq => ?_
  simp [settledAfter, followsWell, isSettling, hq, ht]

theorem settledAfter_registerWrites {t : Nat} (ht : 5 ≤ t) (fs : List (Byte × Byte)) (q : Option Event)
    (h : q ≠ some (.w .load false)) : settledAfter q (registerWrites t fs) = true := by
  induction fs generalizing q with
  | nil => simpa [settledAfter] using h
  | cons f fs ih =>
    rw [registerWrites_cons]
    exact settledAfter_append (settledAfter_registerWrite ht f.1 f.2 q h) ih

/-- The opening of `INIT` ends no frame (R147, R149). -/
theorem settledAfter_initPinEvents (q : Option Event) (h : q ≠ some (.w .load false)) :
    settledAfter q initPinEvents = true := by
  simp [initPinEvents, settledAfter, followsWell, h]

theorem params_wf_settle {p : Params} (h : p.wf = true) : 5 ≤ p.tSettle := by
  simp [Params.wf] at h
  exact h.1.1.1

theorem params_wf_addrs {p : Params} (h : p.wf = true) : p.addrs.wf = true := by
  simp [Params.wf] at h
  exact h.1.1.2

/-! ### Frames from an idle state -/

/-- Frames sent from an idle, initialised state are what the frame trace gains (R46, R62). -/
theorem frameTrace_registerWrites {s : State} (h : Idle s) (hi : s.initialised = true) (rx : BitVec 16)
    (fs : List (Byte × Byte)) :
    frameTrace rx (s.trace ++ registerWrites s.params.tSettle fs) = frameTrace rx s.trace ++ latchesOf fs := by
  obtain ⟨hp, hd, hn⟩ := h.wires rx
  obtain ⟨ha, hc, -, -⟩ := h.after_init hi
  unfold frameTrace
  rw [receive_append]
  exact (takeAll_registerWrites _ _ fs (by rw [hd, ha]) (by rw [hp, hc]) hn).1

/-- An idle, initialised state is idle after frames. -/
theorem idle_registerWrites {s : State} (h : Idle s) (hi : s.initialised = true) (fs : List (Byte × Byte)) :
    Idle { s with
      pin := pinAfter s.pin (registerWrites s.params.tSettle fs)
      trace := s.trace ++ registerWrites s.params.tSettle fs } := by
  obtain ⟨ha, hc, hl, hcount⟩ := h.after_init hi
  have hk := pinAfter_registerWrites_idle s.pin s.params.tSettle fs hc hl
  constructor
  case ready => exact h.ready
  case params_wf => exact h.params_wf
  case wires =>
    intro rx
    obtain ⟨hp, hd, hn⟩ := h.wires rx
    simp only
    rw [receive_append]
    refine ⟨by rw [takeAll_pin, hp], by rw [takeAll_dir, hd, dirAfter_registerWrites], ?_⟩
    exact (takeAll_registerWrites _ _ fs (by rw [hd, ha]) (by rw [hp, hc]) hn).2
  case before_init => intro hf; simp [hi] at hf
  case after_init => exact fun _ => ⟨ha, hk.1, hk.2, hcount⟩
  case settling =>
    exact settledAfter_append h.settling (settledAfter_registerWrites (params_wf_settle h.params_wf) fs)
  case framing =>
    intro _ rx
    obtain ⟨l, rest, he, hl0, hr⟩ := h.framing hi rx
    simp only
    rw [frameTrace_registerWrites h hi rx fs, he]
    refine ⟨l, rest ++ latchesOf fs, by simp, hl0, ?_⟩
    intro f hf
    rcases List.mem_append.1 hf with hf | hf
    · exact hr f hf
    · exact latchesOf_good fs f hf

/-! ### Least durations -/

theorem leastMicros_append (xs ys : List Event) : leastMicros (xs ++ ys) = leastMicros xs + leastMicros ys := by
  simp [leastMicros]

/-- One frame waits twice (R73). -/
theorem leastMicros_registerWrite (t : Nat) (a v : Byte) : leastMicros (registerWrite t a v) = t + t := by
  simp [leastMicros, registerWrite, shift8, shiftBit]

/-- The rows of R156: two delays to a frame. -/
theorem leastMicros_registerWrites (t : Nat) (fs : List (Byte × Byte)) :
    leastMicros (registerWrites t fs) = 2 * t * fs.length := by
  induction fs with
  | nil => rfl
  | cons f fs ih =>
    rw [registerWrites_cons, leastMicros_append, ih, leastMicros_registerWrite, List.length_cons, Nat.mul_succ]
    omega

/-! ### `INIT` -/

/-- The events of `INIT` (R113). -/
def initEvents (p : Params) (n : Int) : List Event :=
  initPinEvents ++ registerWrites p.tSettle (initFrames p.addrs (effectiveCount n))

/-- `INIT n` as one step (R110). -/
theorem exec_init (n : Int) (s : State) (hp : s.pending = []) :
    exec (.init n) s =
      .next { s with
        digitCount := some (effectiveCount n)
        initialised := true
        dir := { data := .output, clk := .output, load := .output }
        pin := { data := false, clk := false, load := true }
        trace := s.trace ++ initEvents s.params n } := by
  have hplan : plan (.init n) s =
      .ok ([.update (.digitCount (effectiveCount n))] ++ events (initEvents s.params n) ++ [.update .initialised]) := rfl
  have hdir : dirAfter s.dir (initEvents s.params n) = { data := .output, clk := .output, load := .output } := by
    rw [initEvents, dirAfter_append, dirAfter_registerWrites]
    rfl
  have hpin : pinAfter s.pin (initEvents s.params n) = { data := false, clk := false, load := true } := by
    rw [initEvents, pinAfter_append, initFrames, pinAfter_registerWrites]
    rfl
  rw [exec_eq_complete, hplan, complete_ok _ _ hp, performAll_append, performAll_append]
  simp only [performAll_cons, performAll_nil, act_update, applyUpdate_digitCount, applyUpdate_initialised,
    performAll_events, hdir, hpin]

/-- What the opening of `INIT` makes of the receiver: the pins driven, `LOAD` high, no clock counted, and a latch
without data when `LOAD` was low (R149). -/
theorem takeAll_initPinEvents (r : Receiver) (hn : r.nclk = 0) :
    r.takeAll initPinEvents =
      { r with
        dir := { data := .output, clk := .output, load := .output }
        pin := { r.pin with load := true }
        frames := if r.pin.load then r.frames
          else r.frames ++ [{ n := 0, address := r.rxsr.extractLsb' 8 8, value := r.rxsr.extractLsb' 0 8 }] } := by
  obtain ⟨dir, ⟨pd, pc, pl⟩, rxsr, nclk, frames⟩ := r
  simp only at hn
  subst hn
  cases pl <;> simp [initPinEvents, Receiver.takeAll, Receiver.take, Receiver.loadUp]

/-- The frame trace `INIT` makes (R113, R149). -/
theorem frameTrace_initEvents (rx : BitVec 16) (t : List Event) (p : Params) (n : Int)
    (hn : (receive rx t).nclk = 0) (hc : (receive rx t).pin.clk = false) :
    frameTrace rx (t ++ initEvents p n) =
        ((receive rx t).takeAll initPinEvents).frames ++ latchesOf (initFrames p.addrs (effectiveCount n)) ∧
      (receive rx (t ++ initEvents p n)).nclk = 0 := by
  unfold frameTrace initEvents
  rw [receive_append, takeAll_append]
  have h := takeAll_initPinEvents (receive rx t) hn
  exact takeAll_registerWrites _ _ _ (by rw [h]) (by rw [h]; exact hc) (by rw [h]; exact hn)

/-- Before `INIT` the receiver has seen nothing. -/
theorem idle_before_init {s : State} (h : Idle s) (hi : s.initialised = false) (rx : BitVec 16) :
    receive rx s.trace = Receiver.start rx := by
  rw [(h.before_init hi).2.2.2]
  rfl

/-- In an idle state the clock is low. -/
theorem idle_clk {s : State} (h : Idle s) : s.pin.clk = false := by
  cases hi : s.initialised with
  | false => rw [(h.before_init hi).2.1]
  | true => exact (h.after_init hi).2.1

/-- An idle state is idle after `INIT`. -/
theorem idle_init {s t : State} (h : Idle s) (n : Int) (ht : exec (.init n) s = .next t) : Idle t := by
  rw [exec_init n s h.ready] at ht
  cases ht
  have hclk : ∀ rx, (receive rx s.trace).pin.clk = false := fun rx => by rw [(h.wires rx).1, idle_clk h]
  have hframe := fun rx => frameTrace_initEvents rx s.trace s.params n (h.wires rx).2.2 (hclk rx)
  constructor
  case ready => exact h.ready
  case params_wf => exact h.params_wf
  case wires =>
    intro rx
    refine ⟨?_, ?_, (hframe rx).2⟩
    · simp only
      rw [receive_append, takeAll_pin, initEvents, pinAfter_append, initFrames, pinAfter_registerWrites]
      rfl
    · simp only
      rw [receive_append, takeAll_dir, initEvents, dirAfter_append, dirAfter_registerWrites]
      rfl
  case before_init => intro hf; simp at hf
  case after_init => exact fun _ => ⟨rfl, rfl, rfl, _, rfl, effectiveCount_range n⟩
  case settling =>
    refine settledAfter_append h.settling fun q hq => ?_
    exact settledAfter_append (settledAfter_initPinEvents q hq)
      (settledAfter_registerWrites (params_wf_settle h.params_wf) _)
  case framing =>
    intro _ rx
    simp only
    rw [(hframe rx).1, takeAll_initPinEvents _ (h.wires rx).2.2]
    cases hi : s.initialised with
    | false =>
      rw [idle_before_init h hi rx]
      exact ⟨_, _, rfl, rfl, latchesOf_good _⟩
    | true =>
      obtain ⟨l, rest, he, hl0, hr⟩ := h.framing hi rx
      have hload : (receive rx s.trace).pin.load = true := by rw [(h.wires rx).1, (h.after_init hi).2.2.1]
      have he' : (receive rx s.trace).frames = l :: rest := he
      simp only [hload, if_true, he']
      refine ⟨l, rest ++ latchesOf (initFrames s.params.addrs (effectiveCount n)), by simp, hl0, ?_⟩
      intro f hf
      rcases List.mem_append.1 hf with hf | hf
      · exact hr f hf
      · exact latchesOf_good _ f hf

end Sys2Proof.Machine
end

