-- ==== Sys2Proof/Laws/Commands.lean ====
section
/-! SUPPORT. What every instruction can do, said once: the inversion of `plan` and of `exec`, and of one step. -/

namespace Sys2Proof.Machine

/-- A command that sends frames gives actions only once initialised (R13). -/
theorem sendFrames_eq_ok {s : State} {fs : List (Byte × Byte)} {as : List Action} (h : sendFrames s fs = .ok as) :
    s.initialised = true ∧ as = events (registerWrites s.params.tSettle fs) := by
  cases hi : s.initialised with
  | false => rw [sendFrames_error s fs hi] at h; cases h
  | true => rw [sendFrames_ok s fs hi] at h; cases h; exact ⟨rfl, rfl⟩

/-- Every list an instruction computes is that of `INIT`, that of `VERSION`, or the register writes of the expansion
table (R62), for which the block must be initialised. -/
theorem plan_ok {i : Instr} {s : State} {as : List Action} (h : plan i s = .ok as) :
    (∃ n, i = .init n ∧
      as = [.update (.digitCount (effectiveCount n))] ++ events (initEvents s.params n) ++ [.update .initialised]) ∨
    (i = .version ∧ as = [.update (.result (versionNumber s.params))]) ∨
    ((∀ n, i ≠ .init n) ∧ i ≠ .version ∧ s.initialised = true ∧
      as = events (registerWrites s.params.tSettle (expansion s i))) := by
  have digit : ∀ w v, planDigit w v s = .ok as → s.initialised = true ∧
      as = events (registerWrites s.params.tSettle (digitFrames s.params.variant (s.digitCount.getD 0) w v)) := by
    intro w v h
    unfold planDigit at h
    split at h
    · rename_i d hd
      rw [hd]
      exact sendFrames_eq_ok h
    · split at h <;> cases h
  cases i
  case init n => cases h; exact .inl ⟨n, rfl, rfl⟩
  case version => cases h; exact .inr (.inl ⟨rfl, rfl⟩)
  case setdigit w v =>
    obtain ⟨h1, h2⟩ := digit w v h
    exact .inr (.inr ⟨fun _ => Instr.noConfusion, Instr.noConfusion, h1, h2⟩)
  case setrow w v =>
    obtain ⟨h1, h2⟩ := digit w v h
    exact .inr (.inr ⟨fun _ => Instr.noConfusion, Instr.noConfusion, h1, h2⟩)
  all_goals
    obtain ⟨h1, h2⟩ := sendFrames_eq_ok h
    exact .inr (.inr ⟨fun _ => Instr.noConfusion, Instr.noConfusion, h1, h2⟩)

/-- Everything an instruction that completes can have done. -/
theorem exec_cases {i : Instr} {s t : State} (h : exec i s = .next t) :
    s.pending = [] ∧
    ((∃ n, i = .init n ∧
      t = { s with
        digitCount := some (effectiveCount n)
        initialised := true
        dir := { data := .output, clk := .output, load := .output }
        pin := { data := false, clk := false, load := true }
        trace := s.trace ++ initEvents s.params n }) ∨
    (i = .version ∧ t = { s with result := some (versionNumber s.params) }) ∨
    ((∀ n, i ≠ .init n) ∧ i ≠ .version ∧ s.initialised = true ∧
      t = { s with
        pin := pinAfter s.pin (registerWrites s.params.tSettle (expansion s i))
        trace := s.trace ++ registerWrites s.params.tSettle (expansion s i) })) := by
  obtain ⟨hp, as, ha, rfl⟩ := exec_next.1 h
  refine ⟨hp, ?_⟩
  rcases plan_ok ha with ⟨n, rfl, rfl⟩ | ⟨rfl, rfl⟩ | ⟨h1, h2, hi, rfl⟩
  · refine .inl ⟨n, rfl, ?_⟩
    have e := exec_init n s hp
    rw [h] at e
    exact Host.Outcome.next.inj e
  · exact .inr (.inl ⟨rfl, rfl⟩)
  · exact .inr (.inr ⟨h1, h2, hi, by rw [performAll_events, dirAfter_registerWrites]⟩)

/-- Once initialised, with a digit count, an instruction other than `INIT` and `VERSION` sends the register writes of
the expansion table (R62). -/
theorem plan_eq_sendFrames (i : Instr) (s : State) {d : Int} (hd : s.digitCount = some d)
    (h1 : ∀ n, i ≠ .init n) (h2 : i ≠ .version) : plan i s = sendFrames s (expansion s i) := by
  cases i
  case init n => exact absurd rfl (h1 n)
  case version => exact absurd rfl h2
  case setdigit w v => simp [plan, planSetdigit, planDigit, expansion, hd]
  case setrow w v => simp [plan, planSetrow, planDigit, expansion, hd]
  all_goals rfl

/-- A digit-content command before `INIT` is refused (R144). -/
theorem planDigit_before_init (w v : Int) (s : State) (hi : s.initialised = false) :
    planDigit w v s = .error .notInitialised := by
  unfold planDigit
  split
  · exact sendFrames_error s _ hi
  · simp [hi]

/-! ### One step -/

theorem step_of_ready {s : State} {x : PortItem} {rest : List PortItem} (hp : s.pending = []) (hx : s.port = x :: rest) :
    step s = issue x { s with port := rest } := by
  simp [step, takePort, hp, hx]

theorem eventStep_of_ready {s : State} {x : PortItem} {rest : List PortItem} (hp : s.pending = [])
    (hx : s.port = x :: rest) : eventStep s = issueEvents x { s with port := rest } := by
  simp [eventStep, takePort, hp, hx]

/-- A port item that stands for an instruction is issued as that instruction, at either level. -/
theorem issue_instr {x : PortItem} {s : State} {i : Instr} (h : x.instr s.params.addrs = some i) :
    issue x s = exec i s ∧ issueEvents x s = accept (plan i s) s := by
  cases x with
  | powerOn => cases h
  | code c => exact ⟨by simp only [issue, h], by simp only [issueEvents, h]⟩
  | call j => exact ⟨by simp only [issue, h], by simp only [issueEvents, h]⟩

/-- What one item of the port can do: an instruction, a power-on, or nothing at all (a reserved word). -/
theorem issue_cases (x : PortItem) (s : State) :
    (∃ i, issue x s = exec i s ∧ issueEvents x s = accept (plan i s) s) ∨
    (issue x s = powerOnReset s ∧ issueEvents x s = powerOnReset s) ∨
    (issue x s = .next s ∧ issueEvents x s = .next s) := by
  cases x with
  | powerOn => exact .inr (.inl ⟨rfl, rfl⟩)
  | code c =>
    cases h : (PortItem.code c).instr s.params.addrs with
    | some i => exact .inl ⟨i, issue_instr h⟩
    | none => exact .inr (.inr ⟨by simp only [issue, h], by simp only [issueEvents, h]⟩)
  | call j => exact .inl ⟨j, rfl, rfl⟩

/-- What is at the port does not matter to an idle state. -/
theorem idle_setPort {s : State} (h : Idle s) (port : List PortItem) : Idle { s with port := port } :=
  ⟨h.ready, h.params_wf, h.wires, h.before_init, h.after_init, h.settling, h.framing⟩

/-- What `RESULT` holds does not matter to an idle state. -/
theorem idle_setResult {s : State} (h : Idle s) (r : Option Int) : Idle { s with result := r } :=
  ⟨h.ready, h.params_wf, h.wires, h.before_init, h.after_init, h.settling, h.framing⟩

/-- Between two commands the invariant is idleness. -/
theorem coherent_iff_idle {s : State} (hp : s.pending = []) : Coherent s ↔ Idle s := by
  unfold Coherent
  rw [finish_of_ready s hp]

/-- What `settle` leaves pending is the rest of the list after its leading updates, and begins with an event if with
anything; it touches neither pins nor trace nor port (R16). -/
theorem settle_spec (as : List Action) (s : State) :
    (settle as s).trace = s.trace ∧ (settle as s).pin = s.pin ∧ (settle as s).dir = s.dir ∧
    (settle as s).port = s.port ∧
    (∃ us, as = us ++ (settle as s).pending ∧ ∀ a ∈ us, ∃ u, a = .update u) ∧
    ((settle as s).pending = [] ∨ ∃ e bs, (settle as s).pending = .event e :: bs) := by
  induction as generalizing s with
  | nil => exact ⟨rfl, rfl, rfl, rfl, ⟨[], rfl, by simp⟩, .inl rfl⟩
  | cons a as ih =>
    cases a with
    | event e => exact ⟨rfl, rfl, rfl, rfl, ⟨[], rfl, by simp⟩, .inr ⟨e, as, rfl⟩⟩
    | update u =>
      obtain ⟨h1, h2, h3, h4, ⟨us, h5, h6⟩, h7⟩ := ih (applyUpdate u s)
      refine ⟨by simpa [settle] using h1, by simpa [settle] using h2, by simpa [settle] using h3,
        by simpa [settle] using h4, ⟨.update u :: us, congrArg (List.cons _) h5, ?_⟩, h7⟩
      intro a ha
      rcases List.mem_cons.1 ha with rfl | ha
      · exact ⟨u, rfl⟩
      · exact h6 a ha

end Sys2Proof.Machine
end

