-- ==== Sys2Proof/Laws/Decode.lean ====
section
/-! SUPPORT. The fields of encoded words, and what the decoder reads from them. -/

namespace Sys2Proof

/-! ### Command words -/

/-- A command word bit by bit (R53). -/
theorem getLsbD_cmdWord (op : BitVec 4) (a : BitVec 16) (b : Byte) (i : Nat) :
    (cmdWord op a b).getLsbD i =
      if i < 8 then b.getLsbD i else if i < 24 then a.getLsbD (i - 8)
      else if i < 28 then false else op.getLsbD (i - 28) := by
  have h1 : (cmdWord op a b).getLsbD i =
      if i < 8 then b.getLsbD i else ((op ++ 0#4) ++ a).getLsbD (i - 8) := BitVec.getLsbD_append
  have h2 : ((op ++ 0#4) ++ a).getLsbD (i - 8) =
      if i - 8 < 16 then a.getLsbD (i - 8) else (op ++ 0#4).getLsbD (i - 8 - 16) := BitVec.getLsbD_append
  have h3 : (op ++ 0#4).getLsbD (i - 8 - 16) =
      if i - 8 - 16 < 4 then (0#4).getLsbD (i - 8 - 16) else op.getLsbD (i - 8 - 16 - 4) := BitVec.getLsbD_append
  have h4 : i - 8 - 16 - 4 = i - 28 := by omega
  rw [h1, h2, h3, h4]
  by_cases c1 : i < 8
  · simp [c1]
  · by_cases c2 : i < 24
    · have : i - 8 < 16 := by omega
      simp [c1, c2, this]
    · have c2' : ¬ i - 8 < 16 := by omega
      by_cases c3 : i < 28
      · have : i - 8 - 16 < 4 := by omega
        simp [c1, c2, c2', c3, this]
      · have c3' : ¬ i - 8 - 16 < 4 := by omega
        simp [c1, c2, c2', c3, c3']

@[simp] theorem fieldOp_cmdWord (op : BitVec 4) (a : BitVec 16) (b : Byte) : fieldOp (cmdWord op a b) = op := by
  apply BitVec.eq_of_getLsbD_eq
  intro i hi
  have h1 : ¬ 28 + i < 8 := by omega
  have h2 : ¬ 28 + i < 24 := by omega
  have h3 : ¬ 28 + i < 28 := by omega
  have h4 : 28 + i - 28 = i := by omega
  rw [fieldOp, BitVec.getLsbD_extractLsb', getLsbD_cmdWord, if_neg h1, if_neg h2, if_neg h3, h4]
  simp [hi]

@[simp] theorem fieldZ_cmdWord (op : BitVec 4) (a : BitVec 16) (b : Byte) : fieldZ (cmdWord op a b) = 0#4 := by
  apply BitVec.eq_of_getLsbD_eq
  intro i hi
  have h1 : ¬ 24 + i < 8 := by omega
  have h2 : ¬ 24 + i < 24 := by omega
  have h3 : 24 + i < 28 := by omega
  rw [fieldZ, BitVec.getLsbD_extractLsb', getLsbD_cmdWord, if_neg h1, if_neg h2, if_pos h3]
  simp

@[simp] theorem fieldA_cmdWord (op : BitVec 4) (a : BitVec 16) (b : Byte) : fieldA (cmdWord op a b) = a := by
  apply BitVec.eq_of_getLsbD_eq
  intro i hi
  have h1 : ¬ 8 + i < 8 := by omega
  have h2 : 8 + i < 24 := by omega
  have h4 : 8 + i - 8 = i := by omega
  rw [fieldA, BitVec.getLsbD_extractLsb', getLsbD_cmdWord, if_neg h1, if_pos h2, h4]
  simp [hi]

@[simp] theorem fieldB_cmdWord (op : BitVec 4) (a : BitVec 16) (b : Byte) : fieldB (cmdWord op a b) = b := by
  apply BitVec.eq_of_getLsbD_eq
  intro i hi
  have h1 : 0 + i < 8 := by omega
  rw [fieldB, BitVec.getLsbD_extractLsb', getLsbD_cmdWord, if_pos h1]
  simp [hi]

/-- An integer in the range of field `A` is read back from it (R55). -/
theorem toInt_toFieldA {n : Int} (h : inFieldA n = true) : (toFieldA n).toInt = n := by
  simp only [inFieldA, decide_eq_true_eq] at h
  rw [toFieldA, BitVec.toInt_ofInt, Int.bmod_def]
  omega

/-- A byte operand is read back from its field (R55). -/
theorem toNat_toByte {n : Int} (h : inByte n = true) : ((toByte n).toNat : Int) = n := by
  simp only [inByte, decide_eq_true_eq] at h
  have h' := BitVec.toNat_ofInt (n := 8) n
  simp only [toByte]
  omega

@[simp] theorem operandA_cmdWord (op : BitVec 4) (a : BitVec 16) (b : Byte) :
    operandA (cmdWord op a b) = a.toInt := by simp [operandA]

@[simp] theorem operandB_cmdWord (op : BitVec 4) (a : BitVec 16) (b : Byte) :
    operandB (cmdWord op a b) = (b.toNat : Int) := by simp [operandB]

@[simp] theorem operandAddress_cmdWord (op : BitVec 4) (x a b : Byte) :
    operandAddress (cmdWord op (x ++ a) b) = (a.toNat : Int) := by
  have h : (x ++ a : BitVec 16).extractLsb' 0 8 = a := Machine.frameValue_frameWord x a
  simp [operandAddress, h]

/-! ### Frames -/

@[simp] theorem frameAddress_word (a v : Byte) : frameAddress (frameWord a v) = a := Machine.frameAddress_frameWord a v

@[simp] theorem frameValue_word (a v : Byte) : frameValue (frameWord a v) = v := Machine.frameValue_frameWord a v

/-- Every frame word is made of its two bytes (R51). -/
theorem frameWord_of_fields (w : FrameWord) : frameWord (frameAddress w) (frameValue w) = w := by
  apply BitVec.eq_of_getLsbD_eq
  intro i hi
  rw [Machine.getLsbD_frameWord]
  by_cases h : i < 8
  · simp [h, frameValue]
  · have h1 : i - 8 < 8 := by omega
    have h2 : 8 + (i - 8) = i := by omega
    simp [h, frameAddress, h1, h2]

theorem isDigitAddr_iff (a : Byte) : isDigitAddr a = true ↔ 1 ≤ a.toNat ∧ a.toNat ≤ 8 := by
  simp [isDigitAddr]

/-- What R5 says of the five addresses, one by one. -/
theorem addrMap_wf_iff (m : AddrMap) : m.wf = true ↔
    (m.decodeMode ≠ m.intensity ∧ m.decodeMode ≠ m.scanLimit ∧ m.decodeMode ≠ m.shutdown ∧
      m.decodeMode ≠ m.displayTest ∧ m.intensity ≠ m.scanLimit ∧ m.intensity ≠ m.shutdown ∧
      m.intensity ≠ m.displayTest ∧ m.scanLimit ≠ m.shutdown ∧ m.scanLimit ≠ m.displayTest ∧
      m.shutdown ≠ m.displayTest) ∧
    isDigitAddr m.decodeMode = false ∧ isDigitAddr m.intensity = false ∧ isDigitAddr m.scanLimit = false ∧
      isDigitAddr m.shutdown = false ∧ isDigitAddr m.displayTest = false := by
  simp [AddrMap.wf, AddrMap.all]
  tauto

/-- Outside 1..8 a frame is decoded by its configuration row, if it has one (R52). -/
theorem decodeFrame_config (m : AddrMap) (a v : Byte) (h : isDigitAddr a = false) :
    decodeFrame m (frameWord a v) = decodeConfigFrame m a v := by
  have h' : ¬ (1 ≤ a.toNat ∧ a.toNat ≤ 8) := by rw [← isDigitAddr_iff, h]; simp
  unfold decodeFrame
  rw [frameAddress_word, frameValue_word]
  split <;> first | rfl | omega

end Sys2Proof
end

