-- ==== Sys2Proof/Laws/PerInstr.lean ====
section
/-! SUPPORT. Per instruction: its encoding has the length of its opcode-table row and the row's fixed top byte. -/

namespace Sys2Proof.Laws

/-- The top byte of a code: bits 31:24 of a command word, the address byte of a frame. -/
def topByte : Code → Byte
  | .cmd32 w => fieldOp w ++ fieldZ w
  | .frame16 w => frameAddress w

/-- The length of a code (R59). -/
def codeLength : Code → Nat
  | .cmd32 _ => 32
  | .frame16 _ => 16

/-- The top byte each row of the opcode table fixes (for a raw frame, the address it carries). -/
def rowTop (m : AddrMap) : Instr → Byte
  | .init _ => 0x10#8
  | .wrreg _ _ => 0x20#8
  | .enable _ => 0x30#8
  | .setint _ => 0x40#8
  | .test _ => 0x50#8
  | .setdigit _ _ => 0x60#8
  | .setrow _ _ => 0x70#8
  | .clear => 0x80#8
  | .version => 0x90#8
  | .frDigit0 _ => 1#8
  | .frDigit1 _ => 2#8
  | .frDigit2 _ => 3#8
  | .frDigit3 _ => 4#8
  | .frDigit4 _ => 5#8
  | .frDigit5 _ => 6#8
  | .frDigit6 _ => 7#8
  | .frDigit7 _ => 8#8
  | .frDecode => m.decodeMode
  | .frIntensity _ => m.intensity
  | .frScanlimit _ => m.scanLimit
  | .frShutdown _ => m.shutdown
  | .frTest _ => m.displayTest
  | .frRaw a _ => a

/-- The length each row of the opcode table gives. -/
def rowLength : Instr → Nat
  | .init _ => 32
  | .wrreg _ _ => 32
  | .enable _ => 32
  | .setint _ => 32
  | .test _ => 32
  | .setdigit _ _ => 32
  | .setrow _ _ => 32
  | .clear => 32
  | .version => 32
  | .frDigit0 _ => 16
  | .frDigit1 _ => 16
  | .frDigit2 _ => 16
  | .frDigit3 _ => 16
  | .frDigit4 _ => 16
  | .frDigit5 _ => 16
  | .frDigit6 _ => 16
  | .frDigit7 _ => 16
  | .frDecode => 16
  | .frIntensity _ => 16
  | .frScanlimit _ => 16
  | .frShutdown _ => 16
  | .frTest _ => 16
  | .frRaw _ _ => 16

/-- The encoding of an instruction is a word of its row. -/
def RowMatch.Statement (i : Instr) : Prop :=
  ∀ m : AddrMap, codeLength (encode m i) = rowLength i ∧ topByte (encode m i) = rowTop m i

theorem cmdWord_row {op : BitVec 4} {a : BitVec 16} {b top : Byte} (h : op ++ 0#4 = top) :
    codeLength (.cmd32 (cmdWord op a b)) = 32 ∧ topByte (.cmd32 (cmdWord op a b)) = top := by
  refine ⟨rfl, ?_⟩
  rw [topByte, fieldOp_cmdWord, fieldZ_cmdWord, ← h]

theorem frameWord_row (a v : Byte) :
    codeLength (.frame16 (frameWord a v)) = 16 ∧ topByte (.frame16 (frameWord a v)) = a :=
  ⟨rfl, frameAddress_word a v⟩

theorem RowMatch.init (x : Int) : RowMatch.Statement (.init x) := by
  intro m
  exact cmdWord_row rfl

theorem RowMatch.wrreg (a v : Int) : RowMatch.Statement (.wrreg a v) := by
  intro m
  exact cmdWord_row rfl

theorem RowMatch.enable (x : Int) : RowMatch.Statement (.enable x) := by
  intro m
  exact cmdWord_row rfl

theorem RowMatch.setint (x : Int) : RowMatch.Statement (.setint x) := by
  intro m
  exact cmdWord_row rfl

theorem RowMatch.test (x : Int) : RowMatch.Statement (.test x) := by
  intro m
  exact cmdWord_row rfl

theorem RowMatch.setdigit (w v : Int) : RowMatch.Statement (.setdigit w v) := by
  intro m
  exact cmdWord_row rfl

theorem RowMatch.setrow (w v : Int) : RowMatch.Statement (.setrow w v) := by
  intro m
  exact cmdWord_row rfl

theorem RowMatch.clear : RowMatch.Statement (.clear) := by
  intro m
  exact cmdWord_row rfl

theorem RowMatch.version : RowMatch.Statement (.version) := by
  intro m
  exact cmdWord_row rfl

theorem RowMatch.frDigit0 (x : Byte) : RowMatch.Statement (.frDigit0 x) := by
  intro m
  exact frameWord_row _ _

theorem RowMatch.frDigit1 (x : Byte) : RowMatch.Statement (.frDigit1 x) := by
  intro m
  exact frameWord_row _ _

theorem RowMatch.frDigit2 (x : Byte) : RowMatch.Statement (.frDigit2 x) := by
  intro m
  exact frameWord_row _ _

theorem RowMatch.frDigit3 (x : Byte) : RowMatch.Statement (.frDigit3 x) := by
  intro m
  exact frameWord_row _ _

theorem RowMatch.frDigit4 (x : Byte) : RowMatch.Statement (.frDigit4 x) := by
  intro m
  exact frameWord_row _ _

theorem RowMatch.frDigit5 (x : Byte) : RowMatch.Statement (.frDigit5 x) := by
  intro m
  exact frameWord_row _ _

theorem RowMatch.frDigit6 (x : Byte) : RowMatch.Statement (.frDigit6 x) := by
  intro m
  exact frameWord_row _ _

theorem RowMatch.frDigit7 (x : Byte) : RowMatch.Statement (.frDigit7 x) := by
  intro m
  exact frameWord_row _ _

theorem RowMatch.frDecode : RowMatch.Statement (.frDecode) := by
  intro m
  exact frameWord_row _ _

theorem RowMatch.frIntensity (x : BitVec 4) : RowMatch.Statement (.frIntensity x) := by
  intro m
  exact frameWord_row _ _

theorem RowMatch.frScanlimit (x : BitVec 3) : RowMatch.Statement (.frScanlimit x) := by
  intro m
  exact frameWord_row _ _

theorem RowMatch.frShutdown (x : BitVec 1) : RowMatch.Statement (.frShutdown x) := by
  intro m
  exact frameWord_row _ _

theorem RowMatch.frTest (x : BitVec 1) : RowMatch.Statement (.frTest x) := by
  intro m
  exact frameWord_row _ _

theorem RowMatch.frRaw (a v : Byte) : RowMatch.Statement (.frRaw a v) := by
  intro m
  exact frameWord_row _ _

end Sys2Proof.Laws
end

