-- ==== Sys2Proof/Laws/Steps.lean ====
section
/-! SUPPORT. Whole commands: their lengths, what their frames make of the image, idle states, and the run of the event
level to the end of a command. -/

namespace Sys2Proof.Machine

/-- A byte given as an operand is itself (R77). -/
theorem toByte_byte (a : Byte) : toByte (a.toNat : Int) = a := by
  simp [toByte]

/-- `INIT` is 680 events (R110). -/
theorem initEvents_length (p : Params) (n : Int) : (initEvents p n).length = 680 := by
  simp [initEvents, initPinEvents, initFrames, clearFrames]

/-- How many register writes an instruction other than `INIT` performs (R62). -/
theorem expansion_length (s : State) (i : Instr) (h1 : ∀ n, i ≠ .init n) :
    (expansion s i).length = 0 ∨ (expansion s i).length = 1 ∨ ((expansion s i).length = 8 ∧ i = .clear) := by
  cases i
  case init n => exact absurd rfl (h1 n)
  case clear => exact .inr (.inr ⟨rfl, rfl⟩)
  case setdigit w v => simp only [expansion, digitFrames]; split <;> simp
  case setrow w v => simp only [expansion, digitFrames]; split <;> simp
  all_goals simp [expansion]

/-- The expansion depends on the parameters and the count only (R19). -/
theorem expansion_congr (i : Instr) (s s' : State) (h1 : s.params = s'.params) (h2 : s.digitCount = s'.digitCount) :
    expansion s i = expansion s' i := by
  cases i <;> simp [expansion, h1, h2]

/-- A frame enables no pin (R14). -/
theorem registerWrites_ne_oe (t : Nat) (fs : List (Byte × Byte)) (p : Pin) :
    ∀ e ∈ registerWrites t fs, e ≠ .oe p := by
  intro e he
  simp only [registerWrites, List.mem_flatMap] at he
  obtain ⟨f, -, he⟩ := he
  rintro rfl
  simp [registerWrite, shift8, shiftBit] at he

/-- The image after good frames: the last frame to an address, or what was there (R45). -/
theorem read_latchesOf (fs : List (Byte × Byte)) (m : Memory) (b : Byte) :
    ((latchesOf fs).foldl (fun m l => l.applyTo m) m).read b.toNat =
      ((fs.reverse.find? (fun f => f.1 = b)).map (·.2)).or (m.read b.toNat) := by
  induction fs generalizing m with
  | nil => simp [latchesOf]
  | cons f fs ih =>
    have : (latchesOf (f :: fs)).foldl (fun m l => l.applyTo m) m =
      (latchesOf fs).foldl (fun m l => l.applyTo m) (m.write f.1.toNat f.2) := rfl
    rw [this, ih]
    simp only [List.reverse_cons, List.find?_append]
    cases hh : fs.reverse.find? (fun f => f.1 = b) with
    | some g => simp
    | none =>
      by_cases hb : f.1 = b
      · subst hb
        simp [Memory.read_write_same]
      · have : b.toNat ≠ f.1.toNat := fun h => hb (BitVec.eq_of_toNat_eq h.symm)
        simp [Memory.read_write_other _ _ this, hb]

/-- The addresses 1 to 8, one by one (R31). -/
theorem digit_range_iff (b : Byte) : (1 ≤ b.toNat ∧ b.toNat ≤ 8) ↔
    b = 1#8 ∨ b = 2#8 ∨ b = 3#8 ∨ b = 4#8 ∨ b = 5#8 ∨ b = 6#8 ∨ b = 7#8 ∨ b = 8#8 := by
  simp only [← BitVec.toNat_inj]
  simp
  omega

/-- The value `INIT` writes at an address, if any (R110, R145). -/
theorem find_initFrames {m : AddrMap} (hm : m.wf = true) (count : Int) (b : Byte) :
    ((initFrames m count).reverse.find? (fun f => f.1 = b)).map (·.2) =
      if b = m.displayTest then some 0#8
      else if b = m.decodeMode then some 0#8
      else if b = m.scanLimit then some (scanLimitByte count)
      else if b = m.intensity then some 15#8
      else if b = m.shutdown then some 0#8
      else if 1 ≤ b.toNat ∧ b.toNat ≤ 8 then some 0#8
      else none := by
  obtain ⟨⟨h1, h2, h3, h4, h5, h6, h7, h8, h9, h10⟩, d1, d2, d3, d4, d5⟩ := (addrMap_wf_iff m).1 hm
  have nd : ∀ a : Byte, isDigitAddr a = false → ¬ (a = 1#8 ∨ a = 2#8 ∨ a = 3#8 ∨ a = 4#8 ∨ a = 5#8 ∨ a = 6#8 ∨
      a = 7#8 ∨ a = 8#8) := by
    intro a ha hd
    rw [← digit_range_iff, ← isDigitAddr_iff, ha] at hd
    cases hd
  have n1 := nd _ d1; have n2 := nd _ d2; have n3 := nd _ d3; have n4 := nd _ d4; have n5 := nd _ d5
  simp only [not_or] at n1 n2 n3 n4 n5
  simp only [digit_range_iff]
  simp only [initFrames, clearFrames, List.reverse_cons, List.reverse_nil, List.nil_append,
    List.cons_append, List.find?_cons, List.find?_nil]
  by_cases c1 : b = m.displayTest
  · subst c1; simp [eq_comm, *]
  by_cases c2 : b = m.decodeMode
  · subst c2; simp [eq_comm, *]
  by_cases c3 : b = m.scanLimit
  · subst c3; simp [eq_comm, *]
  by_cases c4 : b = m.intensity
  · subst c4; simp [eq_comm, *]
  by_cases c5 : b = m.shutdown
  · subst c5; simp [eq_comm, *]
  by_cases c6 : b = 1#8 ∨ b = 2#8 ∨ b = 3#8 ∨ b = 4#8 ∨ b = 5#8 ∨ b = 6#8 ∨ b = 7#8 ∨ b = 8#8
  · rw [if_neg c1, if_neg c2, if_neg c3, if_neg c4, if_neg c5, if_pos c6]
    rcases c6 with rfl | rfl | rfl | rfl | rfl | rfl | rfl | rfl <;> simp [Ne.symm c5]
  · rw [if_neg c1, if_neg c2, if_neg c3, if_neg c4, if_neg c5, if_neg c6]
    simp only [not_or] at c6
    obtain ⟨q1, q2, q3, q4, q5, q6, q7, q8⟩ := c6
    simp [Ne.symm c1, Ne.symm c2, Ne.symm c3, Ne.symm c4, Ne.symm c5, Ne.symm q1, Ne.symm q2, Ne.symm q3,
      Ne.symm q4, Ne.symm q5, Ne.symm q6, Ne.symm q7, Ne.symm q8]

/-- Before `INIT` every instruction but `INIT` and `VERSION` is refused, at both levels (R144). -/
theorem plan_before_init (i : Instr) (s : State) (hi : s.initialised = false) (h1 : ∀ n, i ≠ .init n)
    (h2 : i ≠ .version) : plan i s = .error .notInitialised := by
  cases i
  case init n => exact absurd rfl (h1 n)
  case version => exact absurd rfl h2
  case setdigit w v => exact planDigit_before_init w v s hi
  case setrow w v => exact planDigit_before_init w v s hi
  all_goals exact sendFrames_error s _ hi

theorem refused_before_init (i : Instr) (s : State) (hp : s.pending = []) (hi : s.initialised = false)
    (h1 : ∀ n, i ≠ .init n) (h2 : i ≠ .version) :
    exec i s = .refused .notInitialised ∧ accept (plan i s) s = .refused .notInitialised := by
  rw [exec_eq_complete, plan_before_init i s hi h1 h2]
  simp [complete, accept, State.ready, hp]

/-- No frame word is `INIT` or `VERSION` (R52). -/
theorem decodeFrame_ne (m : AddrMap) (w : FrameWord) :
    (∀ n, decodeFrame m w ≠ .init n) ∧ decodeFrame m w ≠ .version := by
  unfold decodeFrame decodeConfigFrame
  split <;> (repeat' split) <;> exact ⟨fun _ => Instr.noConfusion, Instr.noConfusion⟩

/-- In an idle state every instruction has a plan, but for what R144 refuses. -/
theorem plan_idle {s : State} (h : Idle s) (i : Instr)
    (hi : s.initialised = true ∨ (∃ n, i = .init n) ∨ i = .version) : ∃ as, plan i s = .ok as := by
  by_cases h1 : ∃ n, i = .init n
  · obtain ⟨n, rfl⟩ := h1; exact ⟨_, rfl⟩
  by_cases h2 : i = .version
  · subst h2; exact ⟨_, rfl⟩
  have hs : s.initialised = true := by tauto
  obtain ⟨-, -, -, d, hd, -, -⟩ := h.after_init hs
  exact ⟨_, (plan_eq_sendFrames i s hd (fun n e => h1 ⟨n, e⟩) h2).trans (sendFrames_ok s _ hs)⟩

/-- In an idle state no instruction finds `DIGIT_COUNT` without a value: it is refused before `INIT` (R144), and after
`INIT` there is a count (R12). -/
theorem idle_ne_digitCountUnspecified {s : State} (h : Idle s) (i : Instr) :
    exec i s ≠ .refused .digitCountUnspecified := by
  by_cases hok : s.initialised = true ∨ (∃ n, i = .init n) ∨ i = .version
  · obtain ⟨as, ha⟩ := plan_idle h i hok
    rw [exec_eq_complete, ha, complete_ok _ s h.ready]
    simp
  · simp only [not_or, not_exists, Bool.not_eq_true] at hok
    rw [(refused_before_init i s h.ready hok.1 hok.2.1 hok.2.2).1]
    simp

/-- No instruction reads `RESULT` (R17). -/
theorem exec_ne_resultUnspecified (i : Instr) (s : State) : exec i s ≠ .refused .resultUnspecified := by
  have send : ∀ fs, sendFrames s fs ≠ .error .resultUnspecified := by
    intro fs
    cases hi : s.initialised with
    | true => rw [sendFrames_ok s fs hi]; simp
    | false => rw [sendFrames_error s fs hi]; simp
  have digit : ∀ w v, planDigit w v s ≠ .error .resultUnspecified := by
    intro w v
    unfold planDigit
    split
    · exact send _
    · split <;> simp
  have hplan : plan i s ≠ .error .resultUnspecified := by
    cases i
    case init n => exact fun h => nomatch h
    case version => exact fun h => nomatch h
    case setdigit w v => exact digit w v
    case setrow w v => exact digit w v
    all_goals exact send _
  rw [exec_eq_complete]
  unfold complete
  split
  · cases h : plan i s with
    | ok as => simp
    | error r => exact fun e => hplan (h.trans (congrArg _ (Host.Outcome.refused.inj e)))
  · simp

/-- What `settle` does is the updates at the head of the list, and what is left pends (R16). -/
theorem settle_eq (as : List Action) (s : State) :
    ∃ us, as = us ++ (settle as s).pending ∧ (∀ a ∈ us, ∃ u, a = .update u) ∧
      settle as s = { performAll us s with pending := (settle as s).pending } := by
  induction as generalizing s with
  | nil => exact ⟨[], rfl, by simp, rfl⟩
  | cons a as ih =>
    cases a with
    | event e => exact ⟨[], rfl, by simp, rfl⟩
    | update u =>
      obtain ⟨us, h1, h2, h3⟩ := ih (applyUpdate u s)
      refine ⟨.update u :: us, congrArg (List.cons _) h1, ?_, h3⟩
      intro a ha
      rcases List.mem_cons.1 ha with rfl | ha
      · exact ⟨u, rfl⟩
      · exact h2 a ha

/-- Two frames to one address differ in levels of `DATA` only. -/
theorem eventShape_registerWrite (t : Nat) (a v v' : Byte) :
    (registerWrite t a v).map eventShape = (registerWrite t a v').map eventShape := rfl

/-- An idle state is idle after any instruction that completes. -/
theorem idle_exec {i : Instr} {s t : State} (hI : Idle s) (h : exec i s = .next t) : Idle t := by
  obtain ⟨hp, ⟨n, rfl, ht⟩ | ⟨rfl, rfl⟩ | ⟨h1, h2, hi, rfl⟩⟩ := exec_cases h
  · exact idle_init hI n h
  · exact idle_setResult hI _
  · exact idle_registerWrites hI hi _

/-- A command accepted comes to the state the command level gives (R7). -/
theorem accept_finish {i : Instr} {s t : State} (h : accept (plan i s) s = .next t) :
    exec i s = .next t.finish := by
  unfold accept at h
  split at h
  · rename_i hr
    rw [ready_iff] at hr
    cases ha : plan i s with
    | error r => simp [ha] at h
    | ok as =>
      simp [ha] at h
      subst h
      rw [exec_eq_complete, ha, complete_ok _ _ hr, settle_finish]
      cases s; simp only at hr; subst hr; rfl
  · simp at h

/-- As many event-level steps as there are events pending come to the end of the command (R16). -/
theorem eventRun_finish : ∀ (k : Nat) (s : State), (s.pending = [] ∨ ∃ e as, s.pending = .event e :: as) →
    (eventsOf s.pending).length = k → eventRun k s = .next s.finish := by
  intro k
  induction k with
  | zero =>
    intro s hs hk
    rcases hs with hs | ⟨e, as, hs⟩
    · rw [finish_of_ready s hs]; rfl
    · rw [hs] at hk; simp at hk
  | succ k ih =>
    intro s hs hk
    rcases hs with hs | ⟨e, as, hs⟩
    · rw [hs] at hk; simp at hk
    · have e1 : eventStep s = .next (performNext s) := by simp [eventStep, hs]
      rw [eventRun, e1]
      have e2 : performNext s = settle as (perform e s) := by simp [performNext, hs]
      obtain ⟨-, -, -, -, ⟨us, h5, h6⟩, h7⟩ := settle_spec as (perform e s)
      rw [← performNext_finish s, e2]
      apply ih _ h7
      rw [hs] at hk
      simp at hk
      rw [h5, eventsOf_append] at hk
      have : eventsOf us = [] := by
        unfold eventsOf
        rw [List.filterMap_eq_nil_iff]
        intro a ha
        obtain ⟨u, rfl⟩ := h6 a ha
        rfl
      simpa [this] using hk

end Sys2Proof.Machine
end

