-- ==== Sys2Proof/Machine/Text.lean ====
section
/-! DEFINITION. The textual syntax of a command (R60, D26): one command to a line, the mnemonic of R54 in capitals, its
operands separated by commas, a comment from `;` to the end of the line. No step reads text: this is the reader of the
notation the spec writes its programs in. Log entry 18. -/

namespace Sys2Proof.Machine

/-- What a line of text is. -/
inductive Line where
  /-- Nothing but blanks and a comment. -/
  | blank
  /-- One command. -/
  | command (i : Instr)
  /-- Anything else. -/
  | malformed
  deriving DecidableEq, Repr

/-- The value of a digit in a base of at most 16; nothing for another character. -/
def digitValue (base : Nat) (c : Char) : Option Nat :=
  let n := c.toNat
  let v := if 48 ≤ n ∧ n ≤ 57 then n - 48
    else if 65 ≤ n ∧ n ≤ 70 then n - 55
    else if 97 ≤ n ∧ n ≤ 102 then n - 87
    else base
  if v < base then some v else none

/-- The digits of a number, `acc` being the value of those already read. -/
def digitsValue (base acc : Nat) : List Char → Option Nat
  | [] => some acc
  | c :: cs =>
    match digitValue base c with
    | some d => digitsValue base (acc * base + d) cs
    | none => none

/-- A number without a sign: at least one digit. -/
def unsignedNumber (base : Nat) : List Char → Option Int
  | [] => none
  | c :: cs => (digitsValue base 0 (c :: cs)).map (fun n => (n : Int))

/-- An operand (R60): decimal with an optional leading `-`, or `0x` hexadecimal, or `0b` binary. -/
def operandValue : List Char → Option Int
  | '-' :: cs => (unsignedNumber 10 cs).map (fun n => -n)
  | '0' :: 'x' :: cs => unsignedNumber 16 cs
  | '0' :: 'b' :: cs => unsignedNumber 2 cs
  | cs => unsignedNumber 10 cs

/-- A blank: a space, a tab, or the carriage return of a line's end. -/
def isBlank (c : Char) : Bool := c == ' ' || c == '\t' || c == '\r'

/-- A line without its comment and its blanks at either end. -/
def trimmed (line : List Char) : List Char :=
  (((line.takeWhile (fun c => c != ';')).dropWhile isBlank).reverse.dropWhile isBlank).reverse

/-- The pieces between commas, blanks at their ends dropped; `acc` is the piece so far, last character first. -/
def pieces (acc : List Char) : List Char → List (List Char)
  | [] => [trimmed acc.reverse]
  | c :: cs => if c == ',' then trimmed acc.reverse :: pieces [] cs else pieces (c :: acc) cs

/-- All the operands, or nothing where one is no number. -/
def operandValues : List (List Char) → Option (List Int)
  | [] => some []
  | p :: ps =>
    match operandValue p, operandValues ps with
    | some n, some ns => some (n :: ns)
    | _, _ => none

/-- The command of a mnemonic and its operands, in the order of the abstract form (R54). -/
def commandOf (mnemonic : List Char) : List Int → Option Instr
  | [] =>
    if mnemonic = "CLEAR".toList then some .clear
    else if mnemonic = "VERSION".toList then some .version
    else none
  | [x] =>
    if mnemonic = "INIT".toList then some (.init x)
    else if mnemonic = "ENABLE".toList then some (.enable x)
    else if mnemonic = "SETINT".toList then some (.setint x)
    else if mnemonic = "TEST".toList then some (.test x)
    else none
  | [x, y] =>
    if mnemonic = "WRREG".toList then some (.wrreg x y)
    else if mnemonic = "SETDIGIT".toList then some (.setdigit x y)
    else if mnemonic = "SETROW".toList then some (.setrow x y)
    else none
  | _ => none

/-- One line of text (R60). -/
def readLine (line : List Char) : Line :=
  let body := trimmed line
  let mnemonic := body.takeWhile (fun c => !isBlank c)
  let rest := trimmed (body.dropWhile (fun c => !isBlank c))
  if body.isEmpty then .blank
  else
    match (if rest.isEmpty then some [] else operandValues (pieces [] rest)) with
    | none => .malformed
    | some ns =>
      match commandOf mnemonic ns with
      | some i => .command i
      | none => .malformed

end Sys2Proof.Machine
end

