-- ==== Sys2Proof/Tests/Slice0.lean ====
section
/-! SUPPORT. Tests, each on fixed values taken from the spec: well-formedness, decoding, one step at a time, and for
every statement with hypotheses a state and operands that meet them. -/

namespace Sys2Proof.Tests

open Sys2Proof Sys2Proof.Machine

/-! ### Well-formedness: each check refuses an ill-formed term -/

theorem test_wf_init_wide : (Instr.init 32768).wf Config.addrs = false := by decide
theorem test_wf_enable_wide : (Instr.enable (-32769)).wf Config.addrs = false := by decide
theorem test_wf_setint_wide : (Instr.setint 40000).wf Config.addrs = false := by decide
theorem test_wf_test_wide : (Instr.test 32768).wf Config.addrs = false := by decide
theorem test_wf_setdigit_index_wide : (Instr.setdigit 32768 0).wf Config.addrs = false := by decide
theorem test_wf_setdigit_value_wide : (Instr.setdigit 0 256).wf Config.addrs = false := by decide
theorem test_wf_setrow_index_wide : (Instr.setrow (-32769) 0).wf Config.addrs = false := by decide
theorem test_wf_setrow_value_negative : (Instr.setrow 0 (-1)).wf Config.addrs = false := by decide
theorem test_wf_wrreg_address_wide : (Instr.wrreg 256 0).wf Config.addrs = false := by decide
theorem test_wf_wrreg_value_negative : (Instr.wrreg 0 (-1)).wf Config.addrs = false := by decide
theorem test_wf_raw_of_a_named_frame : (Instr.frRaw 0x0A#8 15#8).wf Config.addrs = false := by decide
theorem test_wf_raw_of_no_named_frame : (Instr.frRaw 0x0A#8 16#8).wf Config.addrs = true := by decide
theorem test_wf_edges_of_fields :
    (Instr.setdigit (-32768) 255).wf Config.addrs = true ∧ (Instr.setdigit 32767 0).wf Config.addrs = true := by
  decide

/-- R5: two configuration addresses equal, or one of them a digit's. -/
theorem test_wf_addresses :
    AddrMap.wf Config.addrs = true ∧ AddrMap.wf { Config.addrs with intensity := 0x09#8 } = false ∧
    AddrMap.wf { Config.addrs with shutdown := 0x08#8 } = false := by
  decide

/-! ### Decoding (V-ENC-1, V-ENC-2, R52) -/

theorem test_decode_init : decodeTableWord 32 0b00010000000000000000011000000000 = some (.init 6) := by decide
theorem test_decode_init_negative : decodeTableWord 32 0x10FFFF00 = some (.init (-1)) := by decide
theorem test_decode_wrreg : decodeTableWord 32 0x20000A0F = some (.wrreg 10 15) := by decide
theorem test_decode_wrreg_ignored : decodeTableWord 32 0x20AB0A0F = some (.wrreg 10 15) := by decide
theorem test_decode_enable : decodeTableWord 32 0x30010000 = some (.enable 256) := by decide
theorem test_decode_setint : decodeTableWord 32 0x40FFFB00 = some (.setint (-5)) := by decide
theorem test_decode_test : decodeTableWord 32 0x50000100 = some (.test 1) := by decide
theorem test_decode_setdigit : decodeTableWord 32 0x60FFFFFF = some (.setdigit (-1) 255) := by decide
theorem test_decode_setrow : decodeTableWord 32 0x700007FF = some (.setrow 7 255) := by decide
theorem test_decode_clear : decodeTableWord 32 0x800123FF = some .clear := by decide
theorem test_decode_version : decodeTableWord 32 0x90FFFFFF = some .version := by decide
theorem test_decode_reserved_op :
    decodeTableWord 32 0x00000600 = none ∧ decodeTableWord 32 0xA0000000 = none ∧
    decodeTableWord 32 0xF0000000 = none := by decide
theorem test_decode_reserved_z :
    decodeTableWord 32 0x11000600 = none ∧ decodeTableWord 32 0x3F000100 = none ∧
    decodeTableWord 32 0x68000000 = none := by decide
theorem test_decode_digit_frames :
    decodeTableWord 16 0x016D = some (.frDigit0 0x6D#8) ∧ decodeTableWord 16 0x0201 = some (.frDigit1 1#8) ∧
    decodeTableWord 16 0x0302 = some (.frDigit2 2#8) ∧ decodeTableWord 16 0x0403 = some (.frDigit3 3#8) ∧
    decodeTableWord 16 0x0504 = some (.frDigit4 4#8) ∧ decodeTableWord 16 0x0605 = some (.frDigit5 5#8) ∧
    decodeTableWord 16 0x0706 = some (.frDigit6 6#8) ∧ decodeTableWord 16 0x0881 = some (.frDigit7 0x81#8) := by
  decide
theorem test_decode_config_frames :
    decodeTableWord 16 0x0900 = some .frDecode ∧ decodeTableWord 16 0x0A0F = some (.frIntensity 15#4) ∧
    decodeTableWord 16 0x0B05 = some (.frScanlimit 5#3) ∧ decodeTableWord 16 0x0C01 = some (.frShutdown 1#1) ∧
    decodeTableWord 16 0x0F00 = some (.frTest 0#1) := by decide
theorem test_decode_raw_frames :
    decodeTableWord 16 0x0D42 = some (.frRaw 0x0D#8 0x42#8) ∧ decodeTableWord 16 0x0901 = some (.frRaw 9#8 1#8) ∧
    decodeTableWord 16 0x0B08 = some (.frRaw 0x0B#8 8#8) ∧ decodeTableWord 16 0x0000 = some (.frRaw 0#8 0#8) := by
  decide
theorem test_decode_no_other_length : decodeTableWord 24 0x200A0F = none := by decide

/-- Another numbering of the configuration registers moves the frames with it (R5). -/
theorem test_decode_other_addresses :
    decode { Config.addrs with intensity := 0x20#8 } (.frame16 0x2003#16) = .ok (.frIntensity 3#4) ∧
    decode { Config.addrs with intensity := 0x20#8 } (.frame16 0x0A03#16) = .ok (.frRaw 0x0A#8 3#8) := by
  decide

theorem test_encode_setdigit : encode Config.addrs (.setdigit (-1) 255) = .cmd32 0x60FFFFFF#32 := by decide

/-! ### Text (V-ENC-1, R60) -/

theorem test_text_init : readLine "INIT -1".toList = .command (.init (-1)) := by decide
theorem test_text_wrreg : readLine "WRREG 0x0A, 0x0F ; maximum".toList = .command (.wrreg 10 15) := by decide
theorem test_text_setdigit : readLine "SETDIGIT 0, 0b01101101".toList = .command (.setdigit 0 0x6D) := by decide
theorem test_text_clear : readLine "CLEAR".toList = .command .clear := by decide
theorem test_text_comment : readLine "; nothing".toList = .blank := by decide
theorem test_text_malformed : readLine "CLEAR 1".toList = .malformed := by decide

/-! ### One step -/

/-- The parameters of 95_test_vectors.md, with numbers of the test's own for pins and versions. -/
def testParams (x : Variant) : Params :=
  { variant := x, tSettle := 5, addrs := Config.addrs, versionPlain := 1, versionTranslating := 2, pinData := 0,
    pinClk := 1, pinLoad := 2 }

/-- A block as `INIT d` leaves it (the start state of 95_test_vectors.md), with no trace. -/
def started (x : Variant) (d : Int) : State :=
  { State.resetOf (testParams x) with
    digitCount := some d
    initialised := true
    dir := { data := .output, clk := .output, load := .output }
    pin := { data := false, clk := false, load := true } }

/-- A receiver attached to a state's pins, its shift register empty. -/
def attached (s : State) : Receiver :=
  { dir := s.dir, pin := s.pin, rxsr := 0#16, nclk := 0, frames := [] }

/-- What the attached receiver latches while an instruction runs: clocks, address and value of each latch. -/
def latched (s : State) (i : Instr) : Option (List (Nat × Nat × Nat)) :=
  match exec i s with
  | .next t =>
    some (((attached s).takeAll (t.trace.drop s.trace.length)).frames.map
      (fun l => (l.n, l.address.toNat, l.value.toNat)))
  | _ => none

theorem test_wrreg_frame : latched (started .translating 1) (.wrreg 8 0x7F) = some [(16, 8, 0x7F)] := by decide
theorem test_wrreg_wide : latched (started .plain 8) (.wrreg (-255) 511) = some [(16, 1, 0xFF)] := by decide
theorem test_enable_256 : latched (started .plain 8) (.enable 256) = some [(16, 0x0C, 1)] := by decide
theorem test_enable_0 : latched (started .plain 8) (.enable 0) = some [(16, 0x0C, 0)] := by decide
theorem test_setint_low :
    latched (started .plain 8) (.setint (-1)) = some [(16, 0x0A, 0)] ∧
    latched (started .plain 8) (.setint 2) = some [(16, 0x0A, 1)] := by decide
theorem test_setint_high :
    latched (started .plain 8) (.setint 16) = some [(16, 0x0A, 15)] ∧
    latched (started .plain 8) (.setint 17) = some [(16, 0x0A, 15)] := by decide
theorem test_test_minus_one : latched (started .plain 8) (.test (-1)) = some [(16, 0x0F, 1)] := by decide
theorem test_version :
    exec .version (State.resetOf (testParams .translating)) =
      .next { State.resetOf (testParams .translating) with result := some 2 } := rfl
theorem test_permute :
    permute 0x6D#8 = 0x5B#8 ∧ permute 0x01#8 = 0x40#8 ∧ permute 0x81#8 = 0xC0#8 ∧ permute 0xF0#8 = 0x87#8 ∧
    permute 0x55#8 = 0x55#8 := by decide
theorem test_setdigit_translates : latched (started .translating 4) (.setdigit 0 0x6D) = some [(16, 1, 0x5B)] := by
  decide
theorem test_setdigit_index_at_count : latched (started .plain 4) (.setdigit 4 0xFF) = some [] := by decide
theorem test_setrow_last : latched (started .plain 8) (.setrow 7 0x81) = some [(16, 8, 0x81)] := by decide
theorem test_setrow_negative : latched (started .plain 8) (.setrow (-1) 0xFF) = some [] := by decide
theorem test_clear :
    expansion (started .translating 1) .clear =
      [(1#8, 0#8), (2#8, 0#8), (3#8, 0#8), (4#8, 0#8), (5#8, 0#8), (6#8, 0#8), (7#8, 0#8), (8#8, 0#8)] := rfl
theorem test_init_six :
    expansion (State.resetOf (testParams .plain)) (.init 6) =
      [(0x0F#8, 0#8), (9#8, 0#8), (0x0B#8, 5#8), (0x0A#8, 15#8), (1#8, 0#8), (2#8, 0#8), (3#8, 0#8), (4#8, 0#8),
        (5#8, 0#8), (6#8, 0#8), (7#8, 0#8), (8#8, 0#8), (0x0C#8, 0#8)] := rfl
/-- R149: the pins come up low, so raising `LOAD` latches without a clock; a repeated `INIT` makes no such edge. -/
theorem test_init_opening :
    ((attached (State.resetOf (testParams .plain))).takeAll initPinEvents).frames =
      [{ n := 0, address := 0#8, value := 0#8 }] ∧
    ((attached (started .plain 6)).takeAll initPinEvents).frames = [] := by decide
theorem test_digit_frames :
    latched (started .translating 1) (.frDigit0 0x6D#8) = some [(16, 1, 0x6D)] ∧
    latched (started .plain 8) (.frDigit1 2#8) = some [(16, 2, 2)] ∧
    latched (started .plain 8) (.frDigit2 3#8) = some [(16, 3, 3)] ∧
    latched (started .plain 8) (.frDigit3 4#8) = some [(16, 4, 4)] := by decide
theorem test_digit_frames_upper :
    latched (started .plain 1) (.frDigit4 5#8) = some [(16, 5, 5)] ∧
    latched (started .plain 8) (.frDigit5 6#8) = some [(16, 6, 6)] ∧
    latched (started .plain 8) (.frDigit6 7#8) = some [(16, 7, 7)] ∧
    latched (started .plain 8) (.frDigit7 0x81#8) = some [(16, 8, 0x81)] := by decide
theorem test_config_frames :
    latched (started .plain 8) .frDecode = some [(16, 9, 0)] ∧
    latched (started .plain 8) (.frIntensity 15#4) = some [(16, 0x0A, 15)] ∧
    latched (started .plain 8) (.frScanlimit 5#3) = some [(16, 0x0B, 5)] := by decide
theorem test_other_frames :
    latched (started .plain 8) (.frShutdown 1#1) = some [(16, 0x0C, 1)] ∧
    latched (started .plain 8) (.frTest 1#1) = some [(16, 0x0F, 1)] ∧
    latched (started .plain 8) (.frRaw 0x55#8 0xAA#8) = some [(16, 0x55, 0xAA)] := by decide

/-- A table word placed at the reset state is run by the next step: `VERSION` completes, `SETINT` is refused (R144). -/
theorem test_fetch_version :
    step ((State.resetOf (testParams .plain)).withFetchWord 32 0x90123456) =
      .next { State.resetOf (testParams .plain) with result := some 1 } := rfl
theorem test_fetch_before_init :
    step ((State.resetOf (testParams .plain)).withFetchWord 32 0x40001000) = .refused .notInitialised := rfl

/-- V-ENC-2: a reserved word is a silent no-op. -/
theorem test_reserved_word :
    step { started .plain 8 with port := [.code (.cmd32 0xA0000000#32)] } = .next (started .plain 8) := rfl

/-- V-RX-1: three clocks, and a clock write that makes no edge. -/
theorem test_receiver_by_hand :
    ((attached (started .plain 8)).takeAll [.w .load false, .w .data true, .w .clk true, .w .clk false, .w .data true,
      .w .clk true, .w .clk false, .w .data true, .w .clk true, .w .clk false, .w .load true]).frames =
        [{ n := 3, address := 0x00#8, value := 0x07#8 }] ∧
    ((attached (started .plain 8)).takeAll [.w .load false, .w .data true, .w .clk true, .w .clk true, .w .clk false,
      .w .load true]).frames = [{ n := 1, address := 0x00#8, value := 0x01#8 }] := by decide

/-- V-RX-2: a clock outside a frame is counted with it. -/
theorem test_receiver_stray_clock :
    ((attached (started .plain 8)).takeAll
      ([.w .data true, .w .clk true, .w .clk false] ++ registerWrite 5 1#8 2#8)).frames =
        [{ n := 17, address := 0x01#8, value := 0x02#8 }] := by decide

/-! ### The hypotheses of the statements can be met -/

theorem test_params_wf (x : Variant) : (testParams x).wf = true := by cases x <;> decide

/-- The reset state of the test's block is idle. -/
theorem test_reset_idle (x : Variant) : Idle (State.resetOf (testParams x)) := by
  constructor
  case ready => rfl
  case params_wf => exact test_params_wf x
  case wires => intro rx; exact ⟨rfl, rfl, rfl⟩
  case before_init => intro _; exact ⟨rfl, rfl, rfl, rfl⟩
  case after_init => intro h; cases h
  case settling => rfl
  case framing => intro h; cases h

/-- The reset state of the test's block meets the invariant. -/
theorem test_reset_coherent (x : Variant) : Coherent (State.resetOf (testParams x)) :=
  (coherent_iff_idle rfl).2 (test_reset_idle x)

/-- The block right after its first `INIT d`. -/
def running (x : Variant) (d : Int) : State :=
  { started x (effectiveCount d) with trace := [] ++ initEvents (testParams x) d }

theorem test_running_is_after_init (x : Variant) (d : Int) :
    exec (.init d) (State.resetOf (testParams x)) = .next (running x d) :=
  exec_init d _ rfl

/-- A state that meets the invariant, ready and initialised: `EveryInstructionCompletesOnceInitialised`,
`EveryDigitIndexIsAccepted`, `FrameTraceFollowsTheExpansionTable`, `OtherRegistersOfTheImageAreUnchanged`,
`WrittenRegistersReadAsWritten`, `OwnCommandsSendOnlyLegalValues`, `FirstInitLatchesOnceWithoutData`. -/
theorem test_running_coherent (x : Variant) (d : Int) :
    Coherent (running x d) ∧ (running x d).pending = [] ∧ (running x d).initialised = true :=
  ⟨(coherent_iff_idle rfl).2 (idle_init (test_reset_idle x) d (test_running_is_after_init x d)), rfl, rfl⟩

/-- Its digit counts, at the edges: the index clauses have 0, `d - 1`, `d` and -1 to choose from. -/
theorem test_running_counts :
    (running .plain 0).digitCount = some 1 ∧ (running .plain 4).digitCount = some 4 ∧
    (running .plain 9).digitCount = some 8 ∧ indexInRange 0 1 = true ∧ indexInRange 7 8 = true ∧
    indexInRange 8 8 = false ∧ indexInRange (-1) 8 = false := by decide

/-- The same from the reset state, not yet initialised: `InitMakesExactlyThirteenRegistersKnown` and the first clause
of `FirstInitLatchesOnceWithoutData`; and after `INIT` its second. -/
theorem test_witness_first_init :
    Coherent (State.resetOf (testParams .plain)) ∧ (State.resetOf (testParams .plain)).pending = [] ∧
    (State.resetOf (testParams .plain)).initialised = false ∧
    exec (.init 6) (State.resetOf (testParams .plain)) = .next (running .plain 6) ∧
    ∃ t, exec (.init 3) (running .plain 6) = .next t :=
  ⟨test_reset_coherent .plain, rfl, rfl, test_running_is_after_init .plain 6, _, exec_init 3 _ rfl⟩

/-- Ready, initialised, with a count, every index clause: `WrregSendsOneFrame`, `WideOperandsAreReducedModulo256`, the
configuration, digit and frame statements; and ready, not initialised: their refusals. -/
theorem test_witness_ready_states :
    (started .plain 8).pending = [] ∧ (started .plain 8).initialised = true ∧ (started .plain 8).digitCount = some 8 ∧
    (State.resetOf (testParams .plain)).pending = [] ∧ (State.resetOf (testParams .plain)).initialised = false := by
  decide

/-- The encodings of the nine commands: a word with each `OP` and `Z = 0`. -/
theorem test_witness_opcodes :
    (fieldOp 0x10000600#32 = 1#4 ∧ fieldOp 0x20000A0F#32 = 2#4 ∧ fieldOp 0x30000100#32 = 3#4 ∧
      fieldOp 0x40001000#32 = 4#4 ∧ fieldOp 0x50000100#32 = 5#4 ∧ fieldOp 0x6000006D#32 = 6#4 ∧
      fieldOp 0x700007FF#32 = 7#4 ∧ fieldOp 0x80000000#32 = 8#4 ∧ fieldOp 0x90000000#32 = 9#4) ∧
    fieldZ 0x10000600#32 = 0#4 ∧ fieldZ 0x900FFFFF#32 = 0#4 := by decide

/-- `IgnoredBitsDoNotMatter`: a pair of different words for each group of opcodes that has ignored bits. -/
theorem test_witness_ignored_bits :
    (fieldOp 0x100006FF#32 = 1#4 ∧ fieldZ 0x100006FF#32 = fieldZ 0x10000600#32 ∧
      fieldA 0x100006FF#32 = fieldA 0x10000600#32) ∧
    (fieldOp 0x20AB0A0F#32 = 2#4 ∧ (∀ i < 8, (fieldA 0x20AB0A0F#32).getLsbD i = (fieldA 0x20000A0F#32).getLsbD i) ∧
      fieldB 0x20AB0A0F#32 = fieldB 0x20000A0F#32) ∧
    (fieldOp 0x800123FF#32 = fieldOp 0x80000000#32 ∧ fieldZ 0x800123FF#32 = fieldZ 0x80000000#32) ∧
    fieldOp 0x90FFFFFF#32 = fieldOp 0x90000000#32 := by decide

/-- `ReservedWordsAreSilentNoOps`: each way to be reserved, at the port of a ready state. -/
theorem test_witness_reserved :
    fieldOp 0x00000600#32 = 0#4 ∧ 10 ≤ (fieldOp 0xA0000000#32).toNat ∧ fieldZ 0x11000600#32 ≠ 0#4 ∧
    { started .plain 8 with port := [.code (.cmd32 0x11000600#32)] }.pending = [] := by decide

/-- `StepRunsTheDecodedInstruction` and the last clause of `PowerOnResetsOnlyBetweenCommands`. -/
theorem test_witness_port :
    { started .plain 8 with port := [.code (.cmd32 0x10000600#32), .powerOn] }.pending = [] ∧
    PortItem.instr (testParams .plain).addrs (.code (.cmd32 0x10000600#32)) = some (.init 6) ∧
    PortItem.instr (testParams .plain).addrs (.call (.wrreg 266 15)) = some (.wrreg 266 15) := by decide

/-- `FetchedWordRunsNext`, in the test's block and in the one `State.reset` describes. -/
theorem test_witness_fetch :
    (testParams .plain).addrs = Config.addrs ∧ State.reset.params.addrs = Config.addrs ∧
    decodeTableWord 16 0x0A0F = some (.frIntensity 15#4) := ⟨rfl, rfl, by decide⟩

/-- `NothingHappensWithoutACommand`. -/
theorem test_witness_waiting :
    (State.resetOf (testParams .plain)).pending = [] ∧ (State.resetOf (testParams .plain)).port = [] := by decide

/-- A state in the middle of a command: `ReadyExactlyWhenNothingIsPending`, `PowerOnResetsOnlyBetweenCommands`,
`PendingEventsArePerformedInOrder` and the steps that keep the invariant. -/
theorem test_witness_pending :
    ∃ s e as, eventStep { running .plain 8 with port := [.call (.wrreg 1 2)] } = .next s ∧
      s.pending = .event e :: as ∧ s.ready = false :=
  ⟨_, _, _, rfl, rfl, rfl⟩

/-- `PendingEventsArePerformedInOrder`, `EventLevelComesToTheCommandLevelState`: a command accepted, and run. -/
theorem test_witness_accept :
    (∃ t, accept (plan (.init 8) (State.resetOf (testParams .plain))) (State.resetOf (testParams .plain)) = .next t) ∧
    (∃ t, step { State.resetOf (testParams .plain) with port := [.call (.init 8)] } = .next t) ∧
    step { State.resetOf (testParams .plain) with port := [.call .clear] } = .refused .notInitialised :=
  ⟨⟨_, rfl⟩, ⟨_, rfl⟩, rfl⟩

/-- `EveryStepKeepsTheInvariant`, `EveryEventStepKeepsTheInvariant`: a step from a state that meets the invariant. -/
theorem test_witness_invariant :
    Coherent (State.resetOf (testParams .translating)) ∧
    step (State.resetOf (testParams .translating)) = .next (State.resetOf (testParams .translating)) ∧
    eventStep (State.resetOf (testParams .translating)) = .next (State.resetOf (testParams .translating)) :=
  ⟨test_reset_coherent .translating, rfl, rfl⟩

/-- `DecodeOfEncodeIsTheInstruction`, `DecodedInstructionsAreWellFormed`: under the default addresses, a command and a
frame, the operand at an edge of its field. -/
theorem test_witness_round_trip :
    AddrMap.wf Config.addrs = true ∧ (Instr.init (-32768)).wf Config.addrs = true ∧
    (Instr.frRaw 0x09#8 1#8).wf Config.addrs = true ∧
    decode Config.addrs (.cmd32 0x60FFFFFF#32) = .ok (.setdigit (-1) 255) ∧
    decode Config.addrs (.frame16 0x0D42#16) = .ok (.frRaw 0x0D#8 0x42#8) := by decide

/-- `RegisterWriteAddsOneGoodLatch`. -/
theorem test_witness_receiver :
    (attached (started .plain 8)).dir = { data := .output, clk := .output, load := .output } ∧
    (attached (started .plain 8)).pin.load = true ∧ (attached (started .plain 8)).pin.clk = false ∧
    (attached (started .plain 8)).nclk = 0 := by decide

/-- `VersionWritesTheVariantsConstant`: two blocks that differ in the variant only. -/
theorem test_witness_variants :
    (testParams .plain).wf = true ∧
    { testParams .plain with variant := (testParams .translating).variant } = testParams .translating := by decide

/-- `SetintFollowsTheIntensityLaw`: each clause at its edges, and no value under two clauses. -/
theorem test_witness_levels :
    intensityByte 0 = 0#8 ∧ intensityByte 1 = 0#8 ∧ intensityByte 16 = 15#8 ∧ intensityByte 17 = 15#8 ∧
    intensityByte (-32768) = 0#8 ∧ intensityByte 32767 = 15#8 := by decide

/-- `DigitCountIsClamped`, `ScanLimitIsCountLessOneButAtLeastThree`: the clauses at their edges. -/
theorem test_witness_counts :
    effectiveCount 0 = 1 ∧ effectiveCount 1 = 1 ∧ effectiveCount 8 = 8 ∧ effectiveCount 9 = 8 ∧
    scanLimitByte 1 = 3#8 ∧ scanLimitByte 4 = 3#8 ∧ scanLimitByte 5 = 4#8 ∧ scanLimitByte 8 = 7#8 := by decide

/-- The statements about a next state of any instruction, and the pairs of states some of them compare. -/
theorem test_witness_exec :
    (∃ t, exec (.setdigit 7 0xFF) (started .plain 8) = .next t) ∧
    (∃ t, exec (.setdigit 7 0xFF) (started .translating 8) = .next t) ∧
    (∃ t, exec .clear (started .plain 8) = .next t) ∧
    (∃ t, exec .version (started .plain 8) = .next t) ∧ (∃ t, exec (.init 2) (started .plain 8) = .next t) :=
  ⟨⟨_, rfl⟩, ⟨_, rfl⟩, ⟨_, rfl⟩, ⟨_, rfl⟩, ⟨_, rfl⟩⟩

/-- `EventsDependOnCountAndParametersOnly`: the same command twice in a row. -/
theorem test_witness_repeated :
    ∃ t u, exec (.wrreg 1 2) (started .plain 8) = .next t ∧ exec (.wrreg 1 2) t = .next u :=
  ⟨_, _, rfl, rfl⟩

/-- `OtherCommandsIgnoreDigitCount`: with and without a count. -/
theorem test_witness_other_count :
    ∃ t, exec (.setint 8) (started .plain 8) = .next t ∧ t.digitCount = some 8 := ⟨_, rfl, rfl⟩

/-- `VariantsDifferInDataLevelsOnly`: twins, and a digit written by both. -/
theorem test_witness_twins :
    Twins (started .plain 8) (started .translating 8) ∧
    (∃ t, exec (.setdigit 0 0x6D) (started .plain 8) = .next t) ∧
    Twins (State.resetOf (testParams .plain)) (State.resetOf (testParams .translating)) := by
  refine ⟨?_, ⟨_, rfl⟩, ?_⟩ <;> constructor <;> decide

/-- `StepsStopOnlyBeforeInit`, `CommandsBeforeInitAreRefused`, `FramesBeforeInitAreRefused`: before `INIT` a command and a
frame at the port are refused, at both levels; `INIT` and a reserved word are not. -/
theorem test_witness_stops :
    Coherent { State.resetOf (testParams .plain) with port := [.call .clear] } ∧
    step { State.resetOf (testParams .plain) with port := [.call .clear] } = .refused .notInitialised ∧
    eventStep { State.resetOf (testParams .plain) with port := [.code (.frame16 0x0C01#16)] } =
      .refused .notInitialised ∧
    step { State.resetOf (testParams .plain) with port := [.code (.cmd32 0#32)] } =
      .next (State.resetOf (testParams .plain)) ∧
    ∃ t, eventStep { State.resetOf (testParams .plain) with port := [.call (.init 8)] } = .next t :=
  ⟨(coherent_iff_idle rfl).2 (idle_setPort (test_reset_idle .plain) _), rfl, rfl, rfl, _, rfl⟩

/-- `PendingEventsArePerformedInOrder`: a state update right after the last event is done with it (log entry 2). -/
theorem test_witness_update_after_event :
    eventStep { started .plain 8 with pending := [.event (.d 5), .update (.digitCount 3), .event (.d 6)] } =
      .next { started .plain 8 with digitCount := some 3, trace := [.d 5], pending := [.event (.d 6)] } := rfl

/-- `VariantsDifferInDataLevelsOnly`: its refusal clause. -/
theorem test_witness_refused :
    exec (.setdigit 0 1) (State.resetOf (testParams .plain)) = .refused .notInitialised := rfl

/-- `FramesBeforeInitAreRefused`, `EveryFrameWordIsTheRegisterWriteOfItsBytes`. -/
theorem test_witness_frame_words :
    decode Config.addrs (.frame16 0x0C01#16) = .ok (.frShutdown 1#1) ∧ (testParams .plain).addrs.wf = true := by decide

/-- `SettlingDelaysAreKept`, `IdleLevelsAreRestored`. -/
theorem test_witness_settled :
    5 ≤ (testParams .plain).tSettle ∧ settled (registerWrite 5 1#8 2#8) = true ∧
    settled [.w .load false, .w .data true] = false ∧ (started .plain 8).pin.clk = false ∧
    (started .plain 8).pin.load = true := by decide +kernel

/-- `OtherRegistersOfTheImageAreUnchanged`: a frame of a command, and an address
outside it. -/
theorem test_witness_expansion :
    expansion (started .plain 8) (.enable 7) = [(0x0C#8, 1#8)] ∧
    expansion (started .plain 8) (.setrow 7 1) = [(0x08#8, 1#8)] ∧ (0x0C#8 : Byte) ≠ 0x08#8 :=
  ⟨rfl, rfl, by decide⟩

/-- `PermuteIsAppliedToDigitContentOnly`: an index in range, in both variants. -/
theorem test_witness_content :
    contentByte .translating 0x6D#8 = 0x5B#8 ∧ contentByte .plain 0x6D#8 = 0x6D#8 := by decide

/-- `RegisterImageIsAWellFormedMap`: an image, a write below, on and above an entry. -/
theorem test_witness_image :
    Memory.wf [(3, 1#8), (9, 0#8)] = true ∧ Memory.write [(3, 1#8), (9, 0#8)] 1 7#8 = [(1, 7#8), (3, 1#8), (9, 0#8)] ∧
    Memory.write [(3, 1#8), (9, 0#8)] 3 7#8 = [(3, 7#8), (9, 0#8)] ∧
    Memory.write [(3, 1#8), (9, 0#8)] 200 7#8 = [(3, 1#8), (9, 0#8), (200, 7#8)] ∧
    Memory.wf [(9, 0#8), (3, 1#8)] = false := by decide

/-- `LaunchWithSharedPinsIsRefused`: each way a pin is shared, legal pins with illegal parameters, and a launch that
goes through. -/
theorem test_witness_launch :
    launch { testParams .plain with pinClk := 0 } [] = .refused .sharedPins ∧
    launch (testParams .plain) [2] = .refused .sharedPins ∧
    launch { testParams .plain with tSettle := 4 } [] = .refused .badParameters ∧
    launch { testParams .plain with versionPlain := 2 } [7] = .refused .badParameters ∧
    launch (testParams .plain) [7] = .next (State.resetOf (testParams .plain)) :=
  ⟨rfl, rfl, rfl, rfl, rfl⟩

end Sys2Proof.Tests
end

section
/-! PROOFS. The result port: what a read of it answers, which instruction writes `RESULT`, and the statement of R17. -/

namespace Sys2Proof.Machine

/-! ### The read of the result port -/

theorem readResult_eq_next {s : State} {v : Int} (h : s.result = some v) : readResult s = .next v := by
  simp only [readResult, h]

theorem readResult_eq_refused {s : State} (h : s.result = none) : readResult s = .refused .resultUnspecified := by
  simp only [readResult, h]

/-- The read depends on `RESULT` alone. -/
theorem readResult_congr {s t : State} (h : t.result = s.result) : readResult t = readResult s := by
  cases hs : s.result with
  | none => rw [readResult_eq_refused hs, readResult_eq_refused (h.trans hs)]
  | some v => rw [readResult_eq_next hs, readResult_eq_next (h.trans hs)]

/-! ### Which instruction writes `RESULT` (R17, R89) -/

theorem exec_version_result {s t : State} (h : exec .version s = .next t) :
    t.result = some (versionNumber s.params) := by
  obtain ⟨-, ⟨_, hi, -⟩ | ⟨-, rfl⟩ | ⟨-, hi, -⟩⟩ := exec_cases h
  · cases hi
  · rfl
  · exact absurd rfl hi

theorem exec_result_of_ne_version {i : Instr} {s t : State} (hne : i ≠ .version) (h : exec i s = .next t) :
    t.result = s.result := by
  obtain ⟨-, ⟨_, -, rfl⟩ | ⟨hi, -⟩ | ⟨-, -, -, rfl⟩⟩ := exec_cases h
  · rfl
  · exact absurd hi hne
  · rfl

/-- Settles O41: of the three things an instruction can have done (`exec_cases`), only that of `VERSION` touches
`RESULT`, and `RESULT` is all the read looks at. -/
theorem resultIsWhatTheLastVersionReturned : Obligations.ResultIsWhatTheLastVersionReturned :=
  ⟨fun _ _ h => readResult_eq_next (exec_version_result h),
    fun _ _ _ hne h => readResult_congr (exec_result_of_ne_version hne h),
    fun p => readResult_eq_refused (resetOf_result p)⟩

end Sys2Proof.Machine
end

section
/-! PROOFS. The command decoder, an equation for each row of R54 and each way to be reserved, and the statements of R56
and R57. -/

namespace Sys2Proof

section rows

variable {w : CmdWord} (hz : fieldZ w = 0#4)
include hz

/-! ### The rows of R54 -/

theorem decodeCmd_eq_init (ho : fieldOp w = 1#4) : decodeCmd w = .ok (.init (operandA w)) := by
  simp [decodeCmd, hz, ho]

theorem decodeCmd_eq_wrreg (ho : fieldOp w = 2#4) :
    decodeCmd w = .ok (.wrreg (operandAddress w) (operandB w)) := by
  simp [decodeCmd, hz, ho]

theorem decodeCmd_eq_enable (ho : fieldOp w = 3#4) : decodeCmd w = .ok (.enable (operandA w)) := by
  simp [decodeCmd, hz, ho]

theorem decodeCmd_eq_setint (ho : fieldOp w = 4#4) : decodeCmd w = .ok (.setint (operandA w)) := by
  simp [decodeCmd, hz, ho]

theorem decodeCmd_eq_test (ho : fieldOp w = 5#4) : decodeCmd w = .ok (.test (operandA w)) := by
  simp [decodeCmd, hz, ho]

theorem decodeCmd_eq_setdigit (ho : fieldOp w = 6#4) :
    decodeCmd w = .ok (.setdigit (operandA w) (operandB w)) := by
  simp [decodeCmd, hz, ho]

theorem decodeCmd_eq_setrow (ho : fieldOp w = 7#4) :
    decodeCmd w = .ok (.setrow (operandA w) (operandB w)) := by
  simp [decodeCmd, hz, ho]

theorem decodeCmd_eq_clear (ho : fieldOp w = 8#4) : decodeCmd w = .ok .clear := by
  simp [decodeCmd, hz, ho]

theorem decodeCmd_eq_version (ho : fieldOp w = 9#4) : decodeCmd w = .ok .version := by
  simp [decodeCmd, hz, ho]

/-- With `Z` zero, the opcodes 1 to 9 are exactly the rows of R54. -/
theorem decodeCmd_isOk_of_op (hpos : fieldOp w ≠ 0#4) (hlt : (fieldOp w).toNat < 10) :
    ∃ i, decodeCmd w = .ok i := by
  have hrow : fieldOp w = 1#4 ∨ fieldOp w = 2#4 ∨ fieldOp w = 3#4 ∨ fieldOp w = 4#4 ∨ fieldOp w = 5#4 ∨
      fieldOp w = 6#4 ∨ fieldOp w = 7#4 ∨ fieldOp w = 8#4 ∨ fieldOp w = 9#4 := by bv_omega
  rcases hrow with ho | ho | ho | ho | ho | ho | ho | ho | ho
  · exact ⟨_, decodeCmd_eq_init hz ho⟩
  · exact ⟨_, decodeCmd_eq_wrreg hz ho⟩
  · exact ⟨_, decodeCmd_eq_enable hz ho⟩
  · exact ⟨_, decodeCmd_eq_setint hz ho⟩
  · exact ⟨_, decodeCmd_eq_test hz ho⟩
  · exact ⟨_, decodeCmd_eq_setdigit hz ho⟩
  · exact ⟨_, decodeCmd_eq_setrow hz ho⟩
  · exact ⟨_, decodeCmd_eq_clear hz ho⟩
  · exact ⟨_, decodeCmd_eq_version hz ho⟩

theorem decodeCmd_eq_reservedOp (ho : fieldOp w = 0#4 ∨ 10 ≤ (fieldOp w).toNat) :
    decodeCmd w = .error .reservedOp := by
  have hnum : (fieldOp w).toNat = 0 ∨ 10 ≤ (fieldOp w).toNat := ho.imp_left (congrArg BitVec.toNat)
  rw [decodeCmd, if_neg (not_not.2 hz)]
  split
  case h_10 => rfl
  all_goals omega

end rows

/-! ### Reserved words (R56) -/

theorem decodeCmd_eq_reservedZ {w : CmdWord} (hz : fieldZ w ≠ 0#4) : decodeCmd w = .error .reservedZ :=
  if_pos hz

theorem decodeCmd_isError_iff (w : CmdWord) :
    (∃ r, decodeCmd w = .error r) ↔ (fieldOp w = 0#4 ∨ 10 ≤ (fieldOp w).toNat ∨ fieldZ w ≠ 0#4) := by
  constructor
  · rintro ⟨r, hr⟩
    by_contra! ⟨hpos, hlt, hz⟩
    obtain ⟨i, hi⟩ := decodeCmd_isOk_of_op hz hpos hlt
    cases hr.symm.trans hi
  · intro h
    by_cases hz : fieldZ w = 0#4
    · exact ⟨_, decodeCmd_eq_reservedOp hz (h.imp_right (·.resolve_right (not_not.2 hz)))⟩
    · exact ⟨_, decodeCmd_eq_reservedZ hz⟩

namespace Machine

/-- A code the decoder rejects does nothing when it is issued, at either level. -/
theorem issue_code_of_error {s : State} {c : Code} {r : Reject} (h : decode s.params.addrs c = .error r) :
    issue (.code c) s = .next s ∧ issueEvents (.code c) s = .next s := by
  have hnone : (PortItem.code c).instr s.params.addrs = none := by rw [PortItem.instr, h]; rfl
  exact ⟨by simp only [issue, hnone], by simp only [issueEvents, hnone]⟩

/-- Settles O10: the reserved words are those the decoder rejects, and a ready block drops such a word from its port. -/
theorem reservedWordsAreSilentNoOps : Obligations.ReservedWordsAreSilentNoOps := by
  refine fun m w => ⟨decodeCmd_isError_iff w, fun s rest hp hport hres => ?_⟩
  obtain ⟨r, hr⟩ := (decodeCmd_isError_iff w).2 hres
  obtain ⟨hcmd, hevents⟩ := issue_code_of_error (s := { s with port := rest }) (c := .cmd32 w) hr
  exact ⟨(step_of_ready hp hport).trans hcmd, (eventStep_of_ready hp hport).trans hevents⟩

end Machine

/-! ### Ignored bits (R57) -/

theorem operandA_congr {w w' : CmdWord} (h : fieldA w' = fieldA w) : operandA w' = operandA w :=
  congrArg BitVec.toInt h

theorem operandB_congr {w w' : CmdWord} (h : fieldB w' = fieldB w) : operandB w' = operandB w :=
  congrArg (fun b : Byte => (b.toNat : Int)) h

/-- The address of `WRREG` is read from the low eight bits of `A` alone (R55). -/
theorem operandAddress_congr {w w' : CmdWord} (h : ∀ i < 8, (fieldA w').getLsbD i = (fieldA w).getLsbD i) :
    operandAddress w' = operandAddress w := by
  have hlow : (fieldA w').extractLsb' 0 8 = (fieldA w).extractLsb' 0 8 :=
    BitVec.eq_of_getLsbD_eq fun i hi => by simpa [hi] using h i hi
  rw [operandAddress, operandAddress, hlow]

/-- Settles O11: a word with `Z` set is reserved whatever the rest, and otherwise the row of its opcode reads the two
words through operands that agree. -/
theorem ignoredBitsDoNotMatter : Obligations.IgnoredBitsDoNotMatter := by
  intro m w w' hop hzz h
  change decodeCmd w' = decodeCmd w
  by_cases hz : fieldZ w = 0#4
  · have hz' := hzz.trans hz
    rcases h with ⟨ho | ho | ho | ho, hA⟩ | ⟨ho, hlow, hB⟩ | ⟨ho | ho, hA, hB⟩ | ho | ho
    · rw [decodeCmd_eq_init hz ho, decodeCmd_eq_init hz' (hop.trans ho), operandA_congr hA]
    · rw [decodeCmd_eq_enable hz ho, decodeCmd_eq_enable hz' (hop.trans ho), operandA_congr hA]
    · rw [decodeCmd_eq_setint hz ho, decodeCmd_eq_setint hz' (hop.trans ho), operandA_congr hA]
    · rw [decodeCmd_eq_test hz ho, decodeCmd_eq_test hz' (hop.trans ho), operandA_congr hA]
    · rw [decodeCmd_eq_wrreg hz ho, decodeCmd_eq_wrreg hz' (hop.trans ho), operandAddress_congr hlow,
        operandB_congr hB]
    · rw [decodeCmd_eq_setdigit hz ho, decodeCmd_eq_setdigit hz' (hop.trans ho), operandA_congr hA,
        operandB_congr hB]
    · rw [decodeCmd_eq_setrow hz ho, decodeCmd_eq_setrow hz' (hop.trans ho), operandA_congr hA, operandB_congr hB]
    · rw [decodeCmd_eq_clear hz ho, decodeCmd_eq_clear hz' (hop.trans ho)]
    · rw [decodeCmd_eq_version hz ho, decodeCmd_eq_version hz' (hop.trans ho)]
  · rw [decodeCmd_eq_reservedZ hz, decodeCmd_eq_reservedZ (hzz ▸ hz)]

end Sys2Proof
end

section
/-! PROOFS. The register write: the events of `SHIFT8`, what `WRREG` does from every ready state, and the statements of
R70, R71 and R77. -/

namespace Sys2Proof.Machine

/-! ### `SHIFT8` (R71) -/

/-- Settles O12: the list of bit numbers that `shift8` runs over is written out from 7 down to 0, so unrolling it gives
the 24 events. -/
theorem shiftSendsEachBitMostSignificantFirst : Obligations.ShiftSendsEachBitMostSignificantFirst :=
  fun _ => rfl

/-! ### `WRREG` as one register write (R70) -/

/-- `WRREG` reads its operands only as bytes, and hands that one frame to the shared register write. -/
theorem exec_wrreg_eq_complete (a v : Int) (s : State) :
    exec (.wrreg a v) s = complete (sendFrames s [(toByte a, toByte v)]) s := rfl

section ready
variable {s : State} (hp : s.pending = []) (a v : Int)
include hp

theorem exec_wrreg_of_initialised (hi : s.initialised = true) :
    exec (.wrreg a v) s =
      .next { s with
        pin := { data := (toByte v).getLsbD 0, clk := false, load := true }
        trace := s.trace ++ registerWrite s.params.tSettle (toByte a) (toByte v) } :=
  complete_sendFrame s (toByte a) (toByte v) hp hi

theorem exec_wrreg_before_init (hi : s.initialised = false) :
    exec (.wrreg a v) s = .refused .notInitialised :=
  (refused_before_init (.wrreg a v) s hp hi (fun _ => Instr.noConfusion) Instr.noConfusion).1

end ready

/-- Settles O14: an operand that is a byte reaches the frame as it is (`toByte_byte`), and the decoder's row for opcode 2
reads the address from `A[7:0]` and the value from `B`. -/
theorem wrregSendsOneFrame : Obligations.WrregSendsOneFrame := by
  refine ⟨fun a v s hp hi => ?_, fun a v s hp hi => exec_wrreg_before_init hp a v hi,
    fun _ _ hz ho => decodeCmd_eq_wrreg hz ho⟩
  have h := exec_wrreg_of_initialised hp a.toNat v.toNat hi
  rwa [toByte_byte, toByte_byte] at h

/-! ### Wide operands (R77) -/

/-- A byte made of an integer depends on that integer mod 256 alone. -/
theorem toByte_emod (n : Int) : toByte (n % 256) = toByte n := by
  have h : ((toByte (n % 256)).toNat : Int) = (toByte n).toNat := by
    rw [toByte_toNat, toByte_toNat, Int.emod_emod]
  exact BitVec.eq_of_toNat_eq (Int.ofNat.inj h)

/-- Settles O15: `WRREG` sees its operands through `toByte` only, which is the reduction mod 256. -/
theorem wideOperandsAreReducedModulo256 : Obligations.WideOperandsAreReducedModulo256 := by
  refine fun a v s => ⟨?_, fun hp hi => ?_⟩
  · rw [exec_wrreg_eq_complete, exec_wrreg_eq_complete, toByte_emod, toByte_emod]
  · exact ⟨toByte a, toByte v, toByte_toNat a, toByte_toNat v, exec_wrreg_of_initialised hp a v hi⟩

end Sys2Proof.Machine
end

section
/-! PROOFS. The configuration commands: the flag that `ENABLE` and `TEST` send, the intensity law, the version number,
and the statements of R85 to R89. -/

namespace Sys2Proof.Machine

/-! ### The flag commands (R85, R88) -/

theorem flagByte_eq_ite (f : Int) : flagByte f = if f = 0 then 0#8 else 1#8 := by
  split
  case isTrue h => rw [h, flagByte_zero]
  case isFalse h => exact flagByte_of_ne h

/-- The bit that a flag frame leaves on the data pin. -/
theorem flagByte_getLsbD_zero (f : Int) : (flagByte f).getLsbD 0 = decide (f ≠ 0) := by
  by_cases h : f = 0
  · simp [h]
  · simp [flagByte_of_ne h, h]

/-- `ENABLE` and `TEST` differ in the address of their one frame only. -/
theorem complete_sendFlag {s : State} (hp : s.pending = []) (hi : s.initialised = true) (a : Byte) (f : Int) :
    complete (sendFrames s [(a, flagByte f)]) s =
      .next { s with
        pin := { data := decide (f ≠ 0), clk := false, load := true }
        trace := s.trace ++ registerWrite s.params.tSettle a (if f = 0 then 0#8 else 1#8) } := by
  rw [complete_sendFrame s a (flagByte f) hp hi, flagByte_getLsbD_zero, flagByte_eq_ite]

/-- Settles O17: `ENABLE` sends the flag to the shutdown address. -/
theorem enableSendsOneOrZeroToShutdown : Obligations.EnableSendsOneOrZeroToShutdown :=
  ⟨fun f s hp hi => complete_sendFlag hp hi s.params.addrs.shutdown f,
    fun f s hp hi => (refused_before_init (.enable f) s hp hi (fun _ => Instr.noConfusion) Instr.noConfusion).1,
    fun _ _ hz ho => decodeCmd_eq_enable hz ho⟩

/-- Settles O18: `TEST` sends the flag to the display-test address. -/
theorem testSendsOneOrZeroToDisplayTest : Obligations.TestSendsOneOrZeroToDisplayTest :=
  ⟨fun f s hp hi => complete_sendFlag hp hi s.params.addrs.displayTest f,
    fun f s hp hi => (refused_before_init (.test f) s hp hi (fun _ => Instr.noConfusion) Instr.noConfusion).1,
    fun _ _ hz ho => decodeCmd_eq_test hz ho⟩

/-! ### The intensity law (R86, R87) -/

/-- Between its two ends the law sends the level less one itself: it fits a byte, so nothing is reduced. -/
theorem intensityByte_toNat_of_range {l : Int} (h1 : 1 ≤ l) (h16 : l ≤ 16) :
    ((intensityByte l).toNat : Int) = l - 1 := by
  obtain ⟨-, hmid, -⟩ := intensityByte_cases l
  rw [hmid h1 h16, toByte_of_range (by omega) (by omega)]

/-- Settles O19: the value sent is `intensityByte l`, which `intensityByte_cases` gives on each side of the law. -/
theorem setintFollowsTheIntensityLaw : Obligations.SetintFollowsTheIntensityLaw := by
  refine ⟨fun l s hp hi => ?_,
    fun l s hp hi => (refused_before_init (.setint l) s hp hi (fun _ => Instr.noConfusion) Instr.noConfusion).1,
    fun _ _ hz ho => decodeCmd_eq_setint hz ho⟩
  obtain ⟨hlow, -, hhigh⟩ := intensityByte_cases l
  exact ⟨intensityByte l, fun h => congrArg BitVec.toNat (hlow h), intensityByte_toNat_of_range,
    fun h => congrArg BitVec.toNat (hhigh h), complete_sendFrame s s.params.addrs.intensity (intensityByte l) hp hi⟩

/-! ### The version number (R89) -/

/-- `VERSION` has no precondition and performs no event: its list is one update of `RESULT`. -/
theorem exec_version {s : State} (hp : s.pending = []) :
    exec .version s = .next { s with result := some (versionNumber s.params) } :=
  complete_ok [.update (.result (versionNumber s.params))] s hp

theorem versionNumber_eq_ite (p : Params) :
    versionNumber p = if p.variant = .plain then p.versionPlain else p.versionTranslating := by
  unfold versionNumber
  cases p.variant <;> rfl

theorem params_wf_versions {p : Params} (h : p.wf = true) : p.versionPlain ≠ p.versionTranslating := by
  simp only [Params.wf, Bool.and_eq_true, decide_eq_true_eq] at h
  obtain ⟨⟨-, hne⟩, -⟩ := h
  exact hne

/-- Changing the variant of a legal block, and nothing else, changes its version number. -/
theorem versionNumber_setVariant_iff {p : Params} (h : p.wf = true) (x : Variant) :
    versionNumber p = versionNumber { p with variant := x } ↔ p.variant = x := by
  have hne := params_wf_versions h
  rw [versionNumber_eq_ite, versionNumber_eq_ite]
  cases p.variant <;> cases x <;> simp [hne, hne.symm]

/-- Settles O20: `VERSION` stores `versionNumber`, and the two constants of a legal block differ. -/
theorem versionWritesTheVariantsConstant : Obligations.VersionWritesTheVariantsConstant := by
  refine ⟨fun s hp => ?_, fun p q hwf hq => ?_, fun _ _ hz ho => decodeCmd_eq_version hz ho⟩
  · rw [exec_version hp, versionNumber_eq_ite]
  · have h := versionNumber_setVariant_iff hwf q.variant
    rwa [hq] at h

end Sys2Proof.Machine
end

section
/-! PROOFS. Digit content: where `PERMUTE` moves each bit, what `SETDIGIT` and `SETROW` do on each side of the index
test, the eight frames of `CLEAR`, and the statements of R95 and R97 to R101. -/

namespace Sys2Proof.Machine

/-! ### `PERMUTE` (R95) and where it is applied (R97) -/

theorem bitOf_getLsbD_zero (v : Byte) (k : Nat) : (bitOf v k).getLsbD 0 = v.getLsbD k := by
  rw [bitOf, BitVec.getLsbD_extractLsb']
  simp

/-- One more bit at the low end moves the others up by one. -/
theorem append_bitOf_getLsbD {n : Nat} (x : BitVec n) (v : Byte) (k j : Nat) :
    (x ++ bitOf v k).getLsbD j = if j = 0 then v.getLsbD k else x.getLsbD (j - 1) := by
  rw [BitVec.getLsbD_append]
  cases j with
  | zero => exact bitOf_getLsbD_zero v k
  | succ j => simp

/-- Bit by bit, `PERMUTE` keeps bit 7 and turns the other seven round. The width is written as the sum that the
concatenation makes, so that `append_bitOf_getLsbD` can take its bits off one at a time. -/
theorem permute_getLsbD (v : Byte) {j : Nat} (hj : j < 8) :
    (permute v).getLsbD j = v.getLsbD (if j = 7 then 7 else 6 - j) := by
  change BitVec.getLsbD (w := 1 + 1 + 1 + 1 + 1 + 1 + 1 + 1) _ j = _
  unfold permute
  simp only [append_bitOf_getLsbD]
  obtain rfl | hlow : j = 7 ∨ j < 7 := by omega
  · exact bitOf_getLsbD_zero v 7
  · interval_cases j <;> rfl

/-- Settles O21: the two halves of `permute_getLsbD`, the second read from the other end. -/
theorem permuteMovesEachBitToItsPlace : Obligations.PermuteMovesEachBitToItsPlace := by
  refine fun v => ⟨permute_getLsbD v (by decide), fun i hi => ?_⟩
  have hback : 6 - (6 - i) = i := by omega
  rw [permute_getLsbD v (by omega), if_neg (by omega), hback]

/-- But for `SETDIGIT` and `SETROW` no instruction's events depend on the variant; `VERSION`, whose update does, has no
event. -/
theorem eventsOf_plan_setVariant {i : Instr} (s : State) (x : Variant) (hd : ∀ w v, i ≠ .setdigit w v)
    (hr : ∀ w v, i ≠ .setrow w v) :
    (plan i { s with params := { s.params with variant := x } }).map eventsOf = (plan i s).map eventsOf := by
  cases i
  case setdigit w v => exact absurd rfl (hd w v)
  case setrow w v => exact absurd rfl (hr w v)
  all_goals rfl

/-- What an instruction that completes adds to the trace is the events of its plan. -/
theorem exec_trace {i : Instr} {s t : State} (h : exec i s = .next t) :
    ∃ es, (plan i s).map eventsOf = .ok es ∧ t.trace = s.trace ++ es := by
  obtain ⟨-, as, hplan, rfl⟩ := exec_next.1 h
  exact ⟨eventsOf as, by rw [hplan]; rfl, performAll_trace as s⟩

/-! ### `SETDIGIT` and `SETROW` (R98, R99) -/

/-- `SETROW` has the plan of `SETDIGIT`. -/
theorem exec_setrow (w v : Int) (s : State) : exec (.setrow w v) s = exec (.setdigit w v) s := rfl

/-- Settles O26: the two rows of R54 differ in their opcode alone. -/
theorem setrowIsSetdigit : Obligations.SetrowIsSetdigit :=
  ⟨exec_setrow, fun _ _ hz ho => decodeCmd_eq_setrow hz ho⟩

theorem digitAddress_toNat {w : Int} (h0 : 0 ≤ w) (h7 : w ≤ 7) : ((digitAddress w).toNat : Int) = w + 1 :=
  toByte_of_range (by omega) (by omega)

theorem exec_setdigit_before_init (w v : Int) {s : State} (hp : s.pending = []) (hi : s.initialised = false) :
    exec (.setdigit w v) s = .refused .notInitialised :=
  (refused_before_init (.setdigit w v) s hp hi (fun _ => Instr.noConfusion) Instr.noConfusion).1

section counted
variable {s : State} {d : Int} (hp : s.pending = []) (hi : s.initialised = true) (hd : s.digitCount = some d)
include hd

theorem exec_setdigit_eq_complete (w v : Int) :
    exec (.setdigit w v) s = complete (sendFrames s (digitFrames s.params.variant d w v)) s := by
  rw [exec_eq_complete, plan_eq_sendFrames _ s hd (fun _ => Instr.noConfusion) Instr.noConfusion, expansion, hd,
    Option.getD_some]

include hp hi

theorem exec_setdigit_completes (w v : Int) : ∃ t, exec (.setdigit w v) s = .next t :=
  ⟨_, (exec_setdigit_eq_complete hd w v).trans (complete_sendFrames s _ hp hi)⟩

theorem exec_setdigit_in_range {w : Int} (h : 0 ≤ w ∧ w ≤ d - 1) (v : Byte) :
    exec (.setdigit w v.toNat) s =
      .next { s with
        pin := { data := (contentByte s.params.variant v).getLsbD 0, clk := false, load := true }
        trace := s.trace ++
          registerWrite s.params.tSettle (digitAddress w) (contentByte s.params.variant v) } := by
  rw [exec_setdigit_eq_complete hd, digitFrames_in h, toByte_byte, complete_sendFrame s _ _ hp hi]

theorem exec_setdigit_out_of_range {w : Int} (h : ¬ (0 ≤ w ∧ w ≤ d - 1)) (v : Int) :
    exec (.setdigit w v) s = .next s := by
  rw [exec_setdigit_eq_complete hd, digitFrames_out h, complete_sendFrames s _ hp hi, registerWrites_nil,
    List.append_nil]
  rfl

end counted

/-- Settles O23: the one frame of a digit-content command carries `contentByte` of its value, and the plans of all other
instructions have the same events in both variants. -/
theorem permuteIsAppliedToDigitContentOnly : Obligations.PermuteIsAppliedToDigitContentOnly := by
  refine ⟨fun _ => ⟨rfl, rfl⟩, fun w v s d hp hi hd h0 hw i hmem => ?_, fun i s t u x hnd hnr ht hu => ?_⟩
  · have hset := exec_setdigit_in_range hp hi hd ⟨h0, hw⟩ v
    obtain rfl | rfl : i = .setdigit w v.toNat ∨ i = .setrow w v.toNat := by simpa using hmem
    · exact ⟨_, hset, rfl⟩
    · exact ⟨_, (exec_setrow w v.toNat s).trans hset, rfl⟩
  · obtain ⟨es, hes, htrace⟩ := exec_trace ht
    obtain ⟨es', hes', hutrace⟩ := exec_trace hu
    have hsame : es' = es :=
      Except.ok.inj (hes'.symm.trans ((eventsOf_plan_setVariant s x hnd hnr).trans hes))
    rw [hutrace, htrace, hsame]

/-- Settles O24: the index test decides between the one frame to register `w + 1`, which fits a byte since the count is
at most 8, and no frame at all. -/
theorem setdigitWritesInRangeAndIgnoresTheRest : Obligations.SetdigitWritesInRangeAndIgnoresTheRest :=
  ⟨fun w v _ _ hp hi hd h8 h0 hw =>
      ⟨digitAddress w, digitAddress_toNat h0 (by omega), exec_setdigit_in_range hp hi hd ⟨h0, hw⟩ v⟩,
    fun _ v _ _ hp hi hd hout => exec_setdigit_out_of_range hp hi hd (by omega) v,
    fun w v _ hp hi => exec_setdigit_before_init w v hp hi,
    fun _ _ hz ho => decodeCmd_eq_setdigit hz ho⟩

/-- Settles O25: the invariant gives an initialised block its count, and with a count `SETDIGIT` completes on both
sides of the index test; `SETROW` is the same instruction. -/
theorem everyDigitIndexIsAccepted : Obligations.EveryDigitIndexIsAccepted := by
  intro w v s hs hp hi
  obtain ⟨-, -, -, d, hd, h1, h8⟩ := ((coherent_iff_idle hp).1 hs).after_init hi
  have hok := exec_setdigit_completes hp hi hd w v
  refine ⟨d, hd, h1, h8, hok, exec_setrow w v s ▸ hok, fun hout => ?_⟩
  have hsame := exec_setdigit_out_of_range hp hi hd hout v
  exact ⟨hsame, (exec_setrow w v s).trans hsame⟩

/-! ### `CLEAR` (R100) -/

/-- The frames of `CLEAR`, by their digit registers in ascending order. -/
theorem registerWrites_clearFrames (t : Nat) :
    registerWrites t clearFrames =
      [1, 2, 3, 4, 5, 6, 7, 8].flatMap (fun k => registerWrite t (BitVec.ofNat 8 k) 0#8) := rfl

/-- The last bit `CLEAR` sends is a 0, whatever was on the data pin. -/
theorem pinAfter_clearFrames (g : Pins Bool) (t : Nat) :
    pinAfter g (registerWrites t clearFrames) = { data := false, clk := false, load := true } :=
  pinAfter_registerWrites g t clearFrames.dropLast 8#8 0#8

theorem exec_clear {s : State} (hp : s.pending = []) (hi : s.initialised = true) :
    exec .clear s =
      .next { s with
        pin := { data := false, clk := false, load := true }
        trace := s.trace ++ registerWrites s.params.tSettle clearFrames } := by
  rw [← pinAfter_clearFrames s.pin s.params.tSettle]
  exact complete_sendFrames s clearFrames hp hi

/-- Settles O27: `CLEAR` sends `clearFrames`, which neither the count nor the variant enters. -/
theorem clearWritesZeroToAllEightDigits : Obligations.ClearWritesZeroToAllEightDigits := by
  refine ⟨fun s hp hi => ?_, fun t => ?_,
    fun s hp hi => (refused_before_init .clear s hp hi (fun _ => Instr.noConfusion) Instr.noConfusion).1,
    fun _ _ hz ho => decodeCmd_eq_clear hz ho⟩
  · rw [exec_clear hp hi, registerWrites_clearFrames]
  · rw [← registerWrites_clearFrames, registerWrites_length]
    rfl

end Sys2Proof.Machine
end

section
/-! PROOFS. Initialisation: the clamped count, the scan limit made of it, where each register write of `INIT` stands among
its events, and the statements of R110 to R112. -/

namespace Sys2Proof.Machine

/-! ### The stored count (R111) -/

theorem effectiveCount_of_lt_one {n : Int} (h : n < 1) : effectiveCount n = 1 := if_pos h

theorem effectiveCount_of_eight_lt {n : Int} (h : 8 < n) : effectiveCount n = 8 := by
  rw [effectiveCount, clamp, if_neg (by omega), if_pos h]

theorem effectiveCount_of_range {n : Int} (h1 : 1 ≤ n) (h8 : n ≤ 8) : effectiveCount n = n := by
  rw [effectiveCount, clamp, if_neg (by omega), if_neg (by omega)]

/-- Settles O29: `INIT` stores `effectiveCount n`, which is given on each side of the clamp and between. -/
theorem digitCountIsClamped : Obligations.DigitCountIsClamped :=
  fun n s hp => ⟨_, exec_init n s hp, fun h => congrArg some (effectiveCount_of_lt_one h),
    fun h => congrArg some (effectiveCount_of_eight_lt h),
    fun h1 h8 => congrArg some (effectiveCount_of_range h1 h8)⟩

/-! ### The scan limit (R112) -/

/-- The third register write of `INIT`, the only one that depends on the count. -/
theorem initFrames_getElem?_two (m : AddrMap) (count : Int) :
    (initFrames m count)[2]? = some (m.scanLimit, scanLimitByte count) := rfl

/-- A stored count is at most 8, so the scan limit fits a byte and nothing is reduced. -/
theorem scanLimitByte_toNat {d : Int} (h8 : d ≤ 8) : ((scanLimitByte d).toNat : Int) = max d 4 - 1 :=
  toByte_of_range (by omega) (by omega)

/-! ### The events of `INIT` (R110, R113) -/

/-- Register writes follow one another without a gap, so write `k` of a list stands `52 * k` events in. -/
theorem registerWrites_drop_take (t : Nat) {fs : List (Byte × Byte)} {k : Nat} {f : Byte × Byte}
    (h : fs[k]? = some f) : ((registerWrites t fs).drop (52 * k)).take 52 = registerWrite t f.1 f.2 := by
  induction fs generalizing k with
  | nil => simp at h
  | cons g fs ih =>
    rw [registerWrites_cons]
    cases k with
    | zero =>
      obtain rfl : g = f := by simpa using h
      exact List.take_left' (registerWrite_length t g.1 g.2)
    | succ k =>
      rw [Nat.mul_succ, Nat.add_comm, ← List.drop_drop, List.drop_left' (registerWrite_length t g.1 g.2)]
      exact ih h

/-- The register writes of `INIT` come after its four opening events. -/
theorem initEvents_drop_take (p : Params) (n : Int) {k : Nat} {f : Byte × Byte}
    (h : (initFrames p.addrs (effectiveCount n))[k]? = some f) :
    ((initEvents p n).drop (4 + 52 * k)).take 52 = registerWrite p.tSettle f.1 f.2 := by
  have hopen : initPinEvents.length = 4 := rfl
  rw [initEvents, ← List.drop_drop, List.drop_left' hopen]
  exact registerWrites_drop_take p.tSettle h

/-- The events of `INIT` with its thirteen register writes one by one, those of the digits by their registers. -/
theorem initEvents_eq_append (p : Params) (n : Int) :
    initEvents p n =
      [.oe .data, .oe .clk, .oe .load, .w .load true]
        ++ registerWrite p.tSettle p.addrs.displayTest 0#8
        ++ registerWrite p.tSettle p.addrs.decodeMode 0#8
        ++ registerWrite p.tSettle p.addrs.scanLimit (scanLimitByte (effectiveCount n))
        ++ registerWrite p.tSettle p.addrs.intensity 15#8
        ++ [1, 2, 3, 4, 5, 6, 7, 8].flatMap (fun k => registerWrite p.tSettle (BitVec.ofNat 8 k) 0#8)
        ++ registerWrite p.tSettle p.addrs.shutdown 0#8 := by
  rw [← registerWrites_clearFrames, initEvents, initPinEvents, initFrames]
  simp only [registerWrites_append, registerWrites_cons, registerWrites_nil, List.append_nil, List.append_assoc]

/-- What `INIT` adds to the trace, whenever it completes. -/
theorem exec_init_trace {n : Int} {s t : State} (h : exec (.init n) s = .next t) :
    t.trace = s.trace ++ initEvents s.params n := by
  obtain ⟨hp, -⟩ := exec_next.1 h
  rw [exec_init n s hp] at h
  cases h
  rfl

/-- Settles O28: `exec_init` is the whole next state, with the events of `INIT` written out. -/
theorem initRunsItsWholeSequence : Obligations.InitRunsItsWholeSequence := by
  refine ⟨fun n s hp => ?_, fun n s t h => ?_, fun _ _ hz ho => decodeCmd_eq_init hz ho⟩
  · rw [exec_init n s hp, initEvents_eq_append]
    rfl
  · rw [exec_init_trace h, List.length_append, initEvents_length]

/-- Settles O30: the third register write of `INIT` stands after `4 + 52 * 2` events and carries the scan limit of the
stored count. -/
theorem scanLimitIsCountLessOneButAtLeastThree : Obligations.ScanLimitIsCountLessOneButAtLeastThree := by
  intro n s hp
  obtain ⟨-, h8⟩ := effectiveCount_range n
  have hx := scanLimitByte_toNat h8
  have hframe := initEvents_drop_take s.params n (initFrames_getElem?_two s.params.addrs (effectiveCount n))
  refine ⟨_, effectiveCount n, scanLimitByte (effectiveCount n), exec_init n s hp, rfl, ?_, ?_⟩
  · rwa [List.drop_left]
  · omega

end Sys2Proof.Machine
end

section
/-! PROOFS. Reset and hazards: the latch edge without data at the first `INIT`, the refusals before it, the settling
delays, and the statements of R144, R147 and R149. -/

namespace Sys2Proof.Machine

/-! ### The latch edge without data (R149) -/

/-- The first `INIT` finds `LOAD` low: its opening raises it before any clock, and that edge latches what the receiver's
shift register holds from before the first event. -/
theorem frameTrace_first_init {s : State} (h : Idle s) (hi : s.initialised = false) (rx : BitVec 16) (n : Int) :
    frameTrace rx (s.trace ++ initEvents s.params n) =
      { n := 0, address := rx.extractLsb' 8 8, value := rx.extractLsb' 0 8 } ::
        latchesOf (initFrames s.params.addrs (effectiveCount n)) := by
  have hstart := idle_before_init h hi rx
  rw [(frameTrace_initEvents rx s.trace s.params n (by rw [hstart]; rfl) (by rw [hstart]; rfl)).1, hstart]
  rfl

/-- A repeated `INIT` finds `LOAD` high, so its opening makes no edge. -/
theorem frameTrace_repeated_init {s : State} (h : Idle s) (hi : s.initialised = true) (rx : BitVec 16) (n : Int) :
    frameTrace rx (s.trace ++ initEvents s.params n) =
      frameTrace rx s.trace ++ latchesOf (initFrames s.params.addrs (effectiveCount n)) := by
  obtain ⟨hpin, -, hnclk⟩ := h.wires rx
  obtain ⟨-, hclk, hload, -⟩ := h.after_init hi
  have hopen : ((receive rx s.trace).takeAll initPinEvents).frames = frameTrace rx s.trace := by
    simp [takeAll_initPinEvents _ hnclk, hpin, hload, frameTrace]
  rw [(frameTrace_initEvents rx s.trace s.params n hnclk (by rw [hpin, hclk])).1, hopen]

/-- A malformed latch writes nothing. -/
theorem Latch.applyTo_of_not_good {l : Latch} (h : l.good = false) (m : Memory) : l.applyTo m = m := by
  simp [Latch.applyTo, h]

theorem imageOf_cons_of_not_good {l : Latch} (h : l.good = false) (fs : List Latch) :
    imageOf (l :: fs) = imageOf fs := by
  rw [imageOf, List.foldl_cons, l.applyTo_of_not_good h, imageOf]

/-- Settles O33: whether `INIT` opens with a latch edge depends on the level of `LOAD` it finds, low before the first
`INIT` and high after it; a latch of no clocks is not good. -/
theorem firstInitLatchesOnceWithoutData : Obligations.FirstInitLatchesOnceWithoutData := by
  intro rx n s t hs hp ht
  have hidle := (coherent_iff_idle hp).1 hs
  rw [exec_init_trace ht]
  exact ⟨fun hi => ⟨_, _, frameTrace_first_init hidle hi rx n⟩,
    fun hi => frameTrace_repeated_init hidle hi rx n,
    fun _ _ fs => imageOf_cons_of_not_good rfl fs⟩

/-! ### Refusals before `INIT` (R144) -/

/-- The step of either level is refused as the instruction at the command port is (R144). -/
theorem steps_refused_before_init {s : State} {x : PortItem} {rest : List PortItem} {i : Instr}
    (hp : s.pending = []) (hi : s.initialised = false) (hport : s.port = x :: rest)
    (hx : x.instr s.params.addrs = some i) (h1 : ∀ n, i ≠ .init n) (h2 : i ≠ .version) :
    step s = .refused .notInitialised ∧ eventStep s = .refused .notInitialised := by
  obtain ⟨hissue, hissueEvents⟩ := issue_instr (s := { s with port := rest }) hx
  obtain ⟨hexec, haccept⟩ := refused_before_init i { s with port := rest } hp hi h1 h2
  exact ⟨(step_of_ready hp hport).trans (hissue.trans hexec),
    (eventStep_of_ready hp hport).trans (hissueEvents.trans haccept)⟩

/-- Settles O37: none of the seven commands is `INIT` or `VERSION`, the only two that need no `INIT` before them. -/
theorem commandsBeforeInitAreRefused : Obligations.CommandsBeforeInitAreRefused := by
  intro s hp hi
  have refused : ∀ i : Instr, (∀ n, i ≠ .init n) → i ≠ .version → exec i s = .refused .notInitialised :=
    fun i h1 h2 => (refused_before_init i s hp hi h1 h2).1
  refine ⟨fun _ _ => refused _ nofun nofun, fun _ => refused _ nofun nofun, fun _ => refused _ nofun nofun,
    fun _ => refused _ nofun nofun, fun _ _ => refused _ nofun nofun, fun _ _ => refused _ nofun nofun,
    refused _ nofun nofun, fun n => ⟨_, exec_init n s hp⟩, ⟨_, exec_version hp⟩,
    fun x rest i hport hx hcmd => ?_⟩
  obtain ⟨hinit, hversion⟩ : (∀ n, i ≠ .init n) ∧ i ≠ .version := by
    rcases hcmd with ⟨_, _, rfl⟩ | ⟨_, rfl⟩ | ⟨_, rfl⟩ | ⟨_, rfl⟩ | ⟨_, _, rfl⟩ | ⟨_, _, rfl⟩ | rfl <;>
      exact ⟨nofun, nofun⟩
  exact steps_refused_before_init hp hi hport hx hinit hversion

/-! ### Settling delays (R147) -/

theorem settledAfter_initEvents {p : Params} (ht : 5 ≤ p.tSettle) (n : Int) (q : Option Event)
    (h : q ≠ some (.w .load false)) : settledAfter q (initEvents p n) = true :=
  settledAfter_append (settledAfter_initPinEvents q h) (settledAfter_registerWrites ht _)

/-- Settles O50: a settled trace does not end in `W(LOAD, 0)`, and after any other event both the events of `INIT` and
register writes are settled. -/
theorem settlingDelaysAreKept : Obligations.SettlingDelaysAreKept := by
  intro i s t ht hs h
  obtain ⟨-, ⟨n, -, rfl⟩ | ⟨-, rfl⟩ | ⟨-, -, -, rfl⟩⟩ := exec_cases h
  · exact settledAfter_append hs (settledAfter_initEvents ht n)
  · exact hs
  · exact settledAfter_append hs (settledAfter_registerWrites ht (expansion s i))

end Sys2Proof.Machine
end

section
/-! PROOFS. The round trip between instructions and words: what each row's word decodes to, what a decoded word encodes
to, and the statements of R51 to R57 that say so. -/

namespace Sys2Proof

/-! ### Frame words (R51, R52) -/

/-- A frame to a legal configuration address is decoded by its own row: the address is no digit's and no other row's,
and the value is one the row admits. -/
theorem decodeFrame_decodeMode {m : AddrMap} (hm : m.wf = true) :
    decodeFrame m (frameWord m.decodeMode 0#8) = .frDecode := by
  obtain ⟨-, hd, -⟩ := (addrMap_wf_iff m).1 hm
  rw [decodeFrame_config m _ _ hd, decodeConfigFrame, if_pos ⟨rfl, rfl⟩]

theorem decodeFrame_intensity {m : AddrMap} (hm : m.wf = true) (v : BitVec 4) :
    decodeFrame m (frameWord m.intensity (v.setWidth 8)) = .frIntensity v := by
  obtain ⟨⟨h, -⟩, -, hd, -⟩ := (addrMap_wf_iff m).1 hm
  have hv : (v.setWidth 8).toNat < 16 := by simp; omega
  rw [decodeFrame_config m _ _ hd, decodeConfigFrame, if_neg (fun e => h e.1.symm), if_pos ⟨rfl, hv⟩,
    BitVec.setWidth_setWidth_of_le _ (by decide), BitVec.setWidth_eq]

theorem decodeFrame_scanLimit {m : AddrMap} (hm : m.wf = true) (v : BitVec 3) :
    decodeFrame m (frameWord m.scanLimit (v.setWidth 8)) = .frScanlimit v := by
  obtain ⟨⟨-, h1, -, -, h2, -⟩, -, -, hd, -⟩ := (addrMap_wf_iff m).1 hm
  have hv : (v.setWidth 8).toNat < 8 := by simp; omega
  rw [decodeFrame_config m _ _ hd, decodeConfigFrame, if_neg (fun e => h1 e.1.symm), if_neg (fun e => h2 e.1.symm),
    if_pos ⟨rfl, hv⟩, BitVec.setWidth_setWidth_of_le _ (by decide), BitVec.setWidth_eq]

theorem decodeFrame_shutdown {m : AddrMap} (hm : m.wf = true) (v : BitVec 1) :
    decodeFrame m (frameWord m.shutdown (v.setWidth 8)) = .frShutdown v := by
  obtain ⟨⟨-, -, h1, -, -, h2, -, h3, -⟩, -, -, -, hd, -⟩ := (addrMap_wf_iff m).1 hm
  have hv : (v.setWidth 8).toNat < 2 := by simp; omega
  rw [decodeFrame_config m _ _ hd, decodeConfigFrame, if_neg (fun e => h1 e.1.symm), if_neg (fun e => h2 e.1.symm),
    if_neg (fun e => h3 e.1.symm), if_pos ⟨rfl, hv⟩, BitVec.setWidth_setWidth_of_le _ (by decide), BitVec.setWidth_eq]

theorem decodeFrame_displayTest {m : AddrMap} (hm : m.wf = true) (v : BitVec 1) :
    decodeFrame m (frameWord m.displayTest (v.setWidth 8)) = .frTest v := by
  obtain ⟨⟨-, -, -, h1, -, -, h2, -, h3, h4⟩, -, -, -, -, hd⟩ := (addrMap_wf_iff m).1 hm
  have hv : (v.setWidth 8).toNat < 2 := by simp; omega
  rw [decodeFrame_config m _ _ hd, decodeConfigFrame, if_neg (fun e => h1 e.1.symm), if_neg (fun e => h2 e.1.symm),
    if_neg (fun e => h3 e.1.symm), if_neg (fun e => h4 e.1.symm), if_pos ⟨rfl, hv⟩,
    BitVec.setWidth_setWidth_of_le _ (by decide), BitVec.setWidth_eq]

/-- What it is that no named row stands for a frame: no digit's address, and no configuration row fits. -/
theorem isNamedFrame_eq_false_iff (m : AddrMap) (a v : Byte) : isNamedFrame m a v = false ↔
    isDigitAddr a = false ∧ ¬ (a = m.decodeMode ∧ v.toNat = 0) ∧ ¬ (a = m.intensity ∧ v.toNat < 16) ∧
      ¬ (a = m.scanLimit ∧ v.toNat < 8) ∧ ¬ (a = m.shutdown ∧ v.toNat < 2) ∧
      ¬ (a = m.displayTest ∧ v.toNat < 2) := by
  simp only [isNamedFrame, Bool.or_eq_false_iff, ← Bool.decide_and, decide_eq_false_iff_not, and_assoc]

theorem decodeFrame_raw {m : AddrMap} {a v : Byte} (h : isNamedFrame m a v = false) :
    decodeFrame m (frameWord a v) = .frRaw a v := by
  obtain ⟨hd, h1, h2, h3, h4, h5⟩ := (isNamedFrame_eq_false_iff m a v).1 h
  rw [decodeFrame_config m a v hd, decodeConfigFrame, if_neg h1, if_neg h2, if_neg h3, if_neg h4, if_neg h5]

/-! ### From an instruction to its word and back -/

theorem operandA_toFieldA (op : BitVec 4) {n : Int} (b : Byte) (h : inFieldA n = true) :
    operandA (cmdWord op (toFieldA n) b) = n := by
  rw [operandA_cmdWord, toInt_toFieldA h]

theorem operandB_toByte (op : BitVec 4) (a : BitVec 16) {v : Int} (h : inByte v = true) :
    operandB (cmdWord op a (toByte v)) = v := by
  rw [operandB_cmdWord, toNat_toByte h]

theorem operandAddress_toByte (op : BitVec 4) (x : Byte) {a : Int} (b : Byte) (h : inByte a = true) :
    operandAddress (cmdWord op (x ++ toByte a) b) = a := by
  rw [operandAddress_cmdWord, toNat_toByte h]

/-- Settles O8: the fields of a command word are read back one by one, and the address of a frame word leads to its
row, the raw row where no named one fits. -/
theorem decodeOfEncodeIsTheInstruction : Obligations.DecodeOfEncodeIsTheInstruction := by
  intro m i hm hi
  have z := fieldZ_cmdWord
  have op := fieldOp_cmdWord
  cases i
  case init n => rw [encode, decode, decodeCmd_eq_init (z ..) (op ..), operandA_toFieldA _ _ hi]
  case enable f => rw [encode, decode, decodeCmd_eq_enable (z ..) (op ..), operandA_toFieldA _ _ hi]
  case setint l => rw [encode, decode, decodeCmd_eq_setint (z ..) (op ..), operandA_toFieldA _ _ hi]
  case test f => rw [encode, decode, decodeCmd_eq_test (z ..) (op ..), operandA_toFieldA _ _ hi]
  case wrreg a v =>
    obtain ⟨ha, hv⟩ := Bool.and_eq_true_iff.1 hi
    rw [encode, decode, decodeCmd_eq_wrreg (z ..) (op ..), operandAddress_toByte _ _ _ ha, operandB_toByte _ _ hv]
  case setdigit w v =>
    obtain ⟨hw, hv⟩ := Bool.and_eq_true_iff.1 hi
    rw [encode, decode, decodeCmd_eq_setdigit (z ..) (op ..), operandA_toFieldA _ _ hw, operandB_toByte _ _ hv]
  case setrow w v =>
    obtain ⟨hw, hv⟩ := Bool.and_eq_true_iff.1 hi
    rw [encode, decode, decodeCmd_eq_setrow (z ..) (op ..), operandA_toFieldA _ _ hw, operandB_toByte _ _ hv]
  case clear => exact decodeCmd_eq_clear (z ..) (op ..)
  case version => exact decodeCmd_eq_version (z ..) (op ..)
  case frDecode => exact congrArg Except.ok (decodeFrame_decodeMode hm)
  case frIntensity v => exact congrArg Except.ok (decodeFrame_intensity hm v)
  case frScanlimit v => exact congrArg Except.ok (decodeFrame_scanLimit hm v)
  case frShutdown v => exact congrArg Except.ok (decodeFrame_shutdown hm v)
  case frTest v => exact congrArg Except.ok (decodeFrame_displayTest hm v)
  case frRaw a v => exact congrArg Except.ok (decodeFrame_raw (by simpa [Instr.wf] using hi))
  all_goals simp [encode, decode, decodeFrame]

/-! ### From a word to its instruction and back -/

/-- A configuration row keeps the bits its word leaves free, and the raw row is taken only where no named row fits. -/
theorem decodeConfigFrame_round_trip (m : AddrMap) {a : Byte} (hd : isDigitAddr a = false) (v : Byte) :
    (decodeConfigFrame m a v).wf m = true ∧ encode m (decodeConfigFrame m a v) = .frame16 (frameWord a v) := by
  have narrow : ∀ k, v.toNat < 2 ^ k → (v.setWidth k).setWidth 8 = v := fun k hk =>
    BitVec.eq_of_toNat_eq (by simp [Nat.mod_eq_of_lt hk, Nat.mod_eq_of_lt v.isLt])
  unfold decodeConfigFrame
  split
  next h => exact ⟨rfl, by rw [encode, ← h.1, show v = 0#8 from BitVec.eq_of_toNat_eq h.2]⟩
  split
  next h => exact ⟨rfl, by rw [encode, ← h.1, narrow 4 h.2]⟩
  split
  next h => exact ⟨rfl, by rw [encode, ← h.1, narrow 3 h.2]⟩
  split
  next h => exact ⟨rfl, by rw [encode, ← h.1, narrow 1 h.2]⟩
  split
  next h => exact ⟨rfl, by rw [encode, ← h.1, narrow 1 h.2]⟩
  next h1 h2 h3 h4 h5 =>
    have hn := (isNamedFrame_eq_false_iff m a v).2 ⟨hd, h1, h2, h3, h4, h5⟩
    exact ⟨by rw [Instr.wf, hn, Bool.not_false], rfl⟩

/-- What the decoder reads from a frame word is well formed and encodes to that word again. -/
theorem decodeFrame_round_trip (m : AddrMap) (w : FrameWord) :
    (decodeFrame m w).wf m = true ∧ encode m (decodeFrame m w) = .frame16 w := by
  rw [← frameWord_of_fields w]
  generalize frameAddress w = a, frameValue w = v
  cases hd : isDigitAddr a with
  | false =>
    rw [decodeFrame_config m a v hd]
    exact decodeConfigFrame_round_trip m hd v
  | true =>
    have hrange := (Machine.digit_range_iff a).1 ((isDigitAddr_iff a).1 hd)
    rcases hrange with rfl | rfl | rfl | rfl | rfl | rfl | rfl | rfl <;>
      simp [decodeFrame, encode, Instr.wf]

theorem inFieldA_operandA (w : CmdWord) : inFieldA (operandA w) = true := by
  have hlo : -32768 ≤ (fieldA w).toInt := BitVec.le_toInt (fieldA w)
  have hhi : (fieldA w).toInt < 32768 := BitVec.toInt_lt
  exact decide_eq_true ⟨hlo, Int.le_of_lt_add_one hhi⟩

theorem inByte_toNat (b : Byte) : inByte b.toNat = true := by
  have h := b.isLt
  simp only [inByte, decide_eq_true_eq]
  omega

/-- A command word that decodes has `Z` zero, operands that fit their fields, and the opcode its instruction is encoded
with. -/
theorem decodeCmd_ok {w : CmdWord} {i : Instr} (h : decodeCmd w = .ok i) (m : AddrMap) :
    i.wf m = true ∧ fieldZ w = 0#4 ∧ ∃ a b, encode m i = .cmd32 (cmdWord (fieldOp w) a b) := by
  have hA := inFieldA_operandA w
  have hB : inByte (operandB w) = true := inByte_toNat _
  have hAB := Bool.and_eq_true_iff.2 ⟨hA, hB⟩
  have hz : fieldZ w = 0#4 := by
    by_contra hz
    cases h.symm.trans (decodeCmd_eq_reservedZ hz)
  have hop : ¬ (fieldOp w = 0#4 ∨ 10 ≤ (fieldOp w).toNat) := fun ho =>
    nomatch h.symm.trans (decodeCmd_eq_reservedOp hz ho)
  have hrow : fieldOp w = 1#4 ∨ fieldOp w = 2#4 ∨ fieldOp w = 3#4 ∨ fieldOp w = 4#4 ∨ fieldOp w = 5#4 ∨
      fieldOp w = 6#4 ∨ fieldOp w = 7#4 ∨ fieldOp w = 8#4 ∨ fieldOp w = 9#4 := by bv_omega
  rcases hrow with ho | ho | ho | ho | ho | ho | ho | ho | ho <;> rw [ho]
  · cases h.symm.trans (decodeCmd_eq_init hz ho); exact ⟨hA, hz, _, _, rfl⟩
  · cases h.symm.trans (decodeCmd_eq_wrreg hz ho)
    exact ⟨Bool.and_eq_true_iff.2 ⟨inByte_toNat _, hB⟩, hz, _, _, rfl⟩
  · cases h.symm.trans (decodeCmd_eq_enable hz ho); exact ⟨hA, hz, _, _, rfl⟩
  · cases h.symm.trans (decodeCmd_eq_setint hz ho); exact ⟨hA, hz, _, _, rfl⟩
  · cases h.symm.trans (decodeCmd_eq_test hz ho); exact ⟨hA, hz, _, _, rfl⟩
  · cases h.symm.trans (decodeCmd_eq_setdigit hz ho); exact ⟨hAB, hz, _, _, rfl⟩
  · cases h.symm.trans (decodeCmd_eq_setrow hz ho); exact ⟨hAB, hz, _, _, rfl⟩
  · cases h.symm.trans (decodeCmd_eq_clear hz ho); exact ⟨rfl, hz, _, _, rfl⟩
  · cases h.symm.trans (decodeCmd_eq_version hz ho); exact ⟨rfl, hz, _, _, rfl⟩

/-- Settles O9: a frame is read with all its bits, and a command's word decodes to the instruction again because the
instruction is well formed (O8). -/
theorem decodedInstructionsAreWellFormed : Obligations.DecodedInstructionsAreWellFormed := by
  intro m c i hm h
  cases c with
  | frame16 w =>
    cases h
    obtain ⟨hwf, henc⟩ := decodeFrame_round_trip m w
    exact ⟨hwf, fun _ _ => henc, nofun⟩
  | cmd32 w =>
    obtain ⟨hwf, hz, a, b, henc⟩ := decodeCmd_ok (w := w) h m
    refine ⟨hwf, nofun, ?_⟩
    rintro _ ⟨⟩
    have hagain : decodeCmd (cmdWord (fieldOp w) a b) = .ok i := by
      have hround := decodeOfEncodeIsTheInstruction m i hm hwf
      rwa [henc] at hround
    exact ⟨_, henc, fieldOp_cmdWord .., (fieldZ_cmdWord ..).trans hz.symm, hagain.trans h.symm⟩

/-- Settles O7: the words are written out, so the decoder runs on each. -/
theorem sampleWordsDecode : Obligations.SampleWordsDecode := by
  unfold Obligations.SampleWordsDecode
  decide

end Sys2Proof
end

section
/-! PROOFS. The invariant: the reset state meets it, every instruction and every step of either level keeps it, and the
statements that say so. -/

namespace Sys2Proof.Machine

/-! ### The reset state (R25, R140) -/

/-- Whatever the free values of `Config` are, the pins and the version number made of them differ from the others. -/
theorem config_params_wf : Config.params.wf = true := by
  have hversions : Config.versionPlain ≠ Config.versionTranslating := by
    unfold Config.versionTranslating
    split <;> omega
  have hclk : Config.wireA ≠ Config.pinClk := by
    unfold Config.pinClk
    split <;> omega
  have hload : Config.wireA ≠ Config.pinLoad ∧ Config.pinClk ≠ Config.pinLoad := by
    unfold Config.pinLoad
    split <;> omega
  simp only [Params.wf, Bool.and_eq_true, decide_eq_true_eq]
  exact ⟨⟨⟨Nat.le_refl 5, by decide⟩, hversions⟩, decide_eq_true ⟨hclk, hload⟩⟩

theorem idle_resetOf {p : Params} (h : p.wf = true) : Idle (State.resetOf p) where
  ready := rfl
  params_wf := h
  wires := fun _ => ⟨rfl, rfl, rfl⟩
  before_init := fun _ => ⟨rfl, rfl, rfl, rfl⟩
  after_init := nofun
  settling := rfl
  framing := nofun

/-- Settles O2: nothing has been sent after reset, so all that is left to show is that the parameters are legal. -/
theorem resetMeetsTheInvariant : Obligations.ResetMeetsTheInvariant :=
  ⟨fun _ h => (coherent_iff_idle rfl).2 (idle_resetOf h), (coherent_iff_idle rfl).2 (idle_resetOf config_params_wf)⟩

/-! ### Steps (R7) -/

/-- An instruction that completes, at once or event by event, comes to an idle state. -/
theorem exec_coherent {i : Instr} {s t : State} (h : Idle s) (ht : exec i s = .next t) : Coherent t := by
  have hidle := idle_exec h ht
  exact (coherent_iff_idle hidle.ready).2 hidle

theorem accept_coherent {i : Instr} {s t : State} (h : Idle s) (ht : accept (plan i s) s = .next t) : Coherent t :=
  idle_exec h (accept_finish ht)

theorem powerOnReset_of_ready {s : State} (hp : s.pending = []) :
    powerOnReset s = .next { State.resetOf s.params with port := s.port } :=
  if_pos ((ready_iff s).2 hp)

theorem powerOnReset_coherent {s t : State} (h : Idle s) (ht : powerOnReset s = .next t) : Coherent t := by
  rw [powerOnReset_of_ready h.ready] at ht
  cases ht
  exact (coherent_iff_idle rfl).2 (idle_setPort (idle_resetOf h.params_wf) s.port)

theorem issue_coherent {x : PortItem} {s t : State} (h : Idle s) (ht : issue x s = .next t) : Coherent t := by
  rcases issue_cases x s with ⟨i, he, -⟩ | ⟨he, -⟩ | ⟨he, -⟩ <;> rw [he] at ht
  · exact exec_coherent h ht
  · exact powerOnReset_coherent h ht
  · cases ht; exact (coherent_iff_idle h.ready).2 h

theorem issueEvents_coherent {x : PortItem} {s t : State} (h : Idle s) (ht : issueEvents x s = .next t) :
    Coherent t := by
  rcases issue_cases x s with ⟨i, -, he⟩ | ⟨-, he⟩ | ⟨-, he⟩ <;> rw [he] at ht
  · exact accept_coherent h ht
  · exact powerOnReset_coherent h ht
  · cases ht; exact (coherent_iff_idle h.ready).2 h

/-- The next event of a command does not change where the command comes to. -/
theorem performNext_coherent {s : State} (h : Coherent s) : Coherent (performNext s) := by
  rw [Coherent, performNext_finish]
  exact h

/-- A step of either level takes its item from the port of an idle state. -/
theorem takePort_coherent {f : PortItem → State → Host.Outcome State Fault Refusal}
    (hf : ∀ {x s t}, Idle s → f x s = .next t → Coherent t) {s t : State} (h : Idle s)
    (ht : takePort f s = .next t) : Coherent t := by
  unfold takePort at ht
  split at ht
  · cases ht; exact (coherent_iff_idle h.ready).2 h
  · exact hf (idle_setPort h _) ht

/-- Settles O55: in the middle of a command a step performs the next event; between two it issues the next item of the
port, which is an instruction, a power-on or nothing. -/
theorem everyStepKeepsTheInvariant : Obligations.EveryStepKeepsTheInvariant := by
  intro s t h ht
  unfold step at ht
  split at ht
  next => cases ht; exact performNext_coherent h
  next hp => exact takePort_coherent issue_coherent ((coherent_iff_idle hp).1 h) ht

/-- Settles O56: as at the command level, but an instruction is accepted, and comes to what the command level gives. -/
theorem everyEventStepKeepsTheInvariant : Obligations.EveryEventStepKeepsTheInvariant := by
  intro s t h ht
  unfold eventStep at ht
  split at ht
  next => cases ht; exact performNext_coherent h
  next hp => exact takePort_coherent issueEvents_coherent ((coherent_iff_idle hp).1 h) ht

end Sys2Proof.Machine
end

section
/-! PROOFS. Reset, launch, the port and one step: the statements of R18, R25, R132, R140 and R141, and what the next
item of the port does. -/

namespace Sys2Proof.Machine

/-! ### Reset and the port -/

/-- With nothing pending and nothing at the port a block waits, at either level. -/
theorem steps_of_empty_port {s : State} (hp : s.pending = []) (hx : s.port = []) :
    step s = .next s ∧ eventStep s = .next s := by
  simp [step, eventStep, takePort, hp, hx]

/-- Settles O5: both levels take the next item from the port, and there is none. -/
theorem nothingHappensWithoutACommand : Obligations.NothingHappensWithoutACommand :=
  fun _ hp hx => steps_of_empty_port hp hx

/-- Settles O1: each field is read off the reset state, at whose port nothing waits. -/
theorem resetLeavesTheStateOfTheResetTable : Obligations.ResetLeavesTheStateOfTheResetTable := by
  intro p
  obtain ⟨hstep, -⟩ := steps_of_empty_port (resetOf_pending p) (resetOf_port p)
  have hpins : ∀ x : Pin, (State.resetOf p).dir.get x = .input ∧ (State.resetOf p).pin.get x = false := by
    intro x
    cases x <;> exact ⟨rfl, rfl⟩
  exact ⟨rfl, rfl, rfl, hpins, rfl, rfl, rfl, rfl, hstep, rfl⟩

/-- Settles O59: `powerOnReset` tests `READY`, and at the port it meets the state without its own item. -/
theorem powerOnResetsOnlyBetweenCommands : Obligations.PowerOnResetsOnlyBetweenCommands :=
  ⟨fun s hp => if_neg (mt (ready_iff s).1 hp), fun _ hp => powerOnReset_of_ready hp,
    fun s rest hp hx => (step_of_ready hp hx).trans (powerOnReset_of_ready (s := { s with port := rest }) hp)⟩

/-- Settles O6: while `READY` is 0, both ways to start a command answer without looking at its plan. -/
theorem readyExactlyWhenNothingIsPending : Obligations.ReadyExactlyWhenNothingIsPending :=
  ⟨ready_iff, fun s i hr => by simp [exec_eq_complete, complete, accept, hr]⟩

/-- Settles O3: the step issues the item, and an item that stands for an instruction is issued as that. -/
theorem stepRunsTheDecodedInstruction : Obligations.StepRunsTheDecodedInstruction :=
  fun s _ rest _ hp hx hi => (step_of_ready hp hx).trans (issue_instr (s := { s with port := rest }) hi).1

theorem decodeTableWord_eq_some {nbits w : Nat} {i : Instr} (h : decodeTableWord nbits w = some i) :
    ∃ c, tableCode nbits w = some c ∧ (PortItem.code c).instr Config.addrs = some i := by
  unfold decodeTableWord at h
  split at h
  · cases h
  next c hc => exact ⟨c, hc, h⟩

/-- Settles O4: the word is the head of the port and nothing pends, so the step runs it (O3). -/
theorem fetchedWordRunsNext : Obligations.FetchedWordRunsNext := by
  intro s nbits w i haddrs h
  obtain ⟨c, hc, hi⟩ := decodeTableWord_eq_some h
  have hplace : s.withFetchWord nbits w = { s with pending := [], port := .code c :: s.port } := by
    simp only [State.withFetchWord, placeWord, hc]
  rw [hplace]
  exact stepRunsTheDecodedInstruction _ (.code c) s.port i rfl rfl (haddrs ▸ hi)

/-! ### Launch (R132, R148) -/

/-- The two tests of a launch, in words: a pin shared with another or with another driver, and legal parameters. -/
theorem launch_shared_iff (p : Params) (others : List Nat) :
    (!p.pinsDistinct || others.contains p.pinData || others.contains p.pinClk || others.contains p.pinLoad) = true ↔
      p.pinData = p.pinClk ∨ p.pinData = p.pinLoad ∨ p.pinClk = p.pinLoad ∨ p.pinData ∈ others ∨ p.pinClk ∈ others ∨
        p.pinLoad ∈ others := by
  simp only [Params.pinsDistinct, Bool.or_eq_true, Bool.not_eq_true', decide_eq_false_iff_not, List.contains_iff_mem]
  tauto

theorem launch_of_shared {p : Params} {others : List Nat}
    (h : p.pinData = p.pinClk ∨ p.pinData = p.pinLoad ∨ p.pinClk = p.pinLoad ∨ p.pinData ∈ others ∨
      p.pinClk ∈ others ∨ p.pinLoad ∈ others) : launch p others = .refused .sharedPins :=
  if_pos ((launch_shared_iff p others).2 h)

theorem launch_next {p : Params} {others : List Nat} {s : State} (h : launch p others = .next s) :
    s = State.resetOf p ∧ p.wf = true := by
  unfold launch at h
  split at h
  · cases h
  split at h
  · cases h
  next hwf =>
    cases h
    exact ⟨rfl, by simpa using hwf⟩

theorem params_wf_pins {p : Params} (h : p.wf = true) :
    p.pinData ≠ p.pinClk ∧ p.pinData ≠ p.pinLoad ∧ p.pinClk ≠ p.pinLoad := by
  simp only [Params.wf, Bool.and_eq_true] at h
  exact of_decide_eq_true h.2

/-- Settles O60: a launch that shares no pin and has legal parameters passes both tests. -/
theorem launchWithSharedPinsIsRefused : Obligations.LaunchWithSharedPinsIsRefused := by
  refine fun p others => ⟨launch_of_shared, fun _ h => launch_next h, fun hwf hd hc hl => ?_⟩
  obtain ⟨h1, h2, h3⟩ := params_wf_pins hwf
  have hfree := mt (launch_shared_iff p others).1 (by tauto)
  rw [launch, if_neg hfree, hwf]
  rfl

end Sys2Proof.Machine
end

section
/-! PROOFS. The register write event by event and at the receiver, what one event does to the pins, the laws of
`PERMUTE`, and the statements of R14, R15, R46, R70 and R95. -/

namespace Sys2Proof.Machine

/-! ### The 52 events (R70 to R75) -/

/-- Frame bit `j` is the bit the table sends as number `15 - j`: bit 15 first, the address byte above the value byte. -/
theorem registerWrite_getElem?_bit (t : Nat) (a v : Byte) {j : Nat} (hj : j < 16) :
    (registerWrite t a v)[2 + 3 * (15 - j)]? = some (.w .data ((frameWord a v).getLsbD j)) ∧
    (registerWrite t a v)[3 + 3 * (15 - j)]? = some (.w .clk true) := by
  rw [getLsbD_frameWord]
  interval_cases j <;> exact ⟨rfl, rfl⟩

/-- Settles O13: which event stands where does not depend on the levels sent, so the list and its counts are read off
`registerWrite`; the bits of the frame are `registerWrite_getElem?_bit`. -/
theorem frameIsTheFiftyTwoEventsOfTheTable : Obligations.FrameIsTheFiftyTwoEventsOfTheTable :=
  fun t a v => ⟨rfl, rfl, rfl, rfl, rfl, rfl, rfl, fun _ hj => registerWrite_getElem?_bit t a v hj⟩

/-- Settles O16: `takeAll_registerWrite` is the receiver's whole state after the frame. -/
theorem registerWriteAddsOneGoodLatch : Obligations.RegisterWriteAddsOneGoodLatch := by
  intro r t a v hd _ hc hn
  rw [takeAll_registerWrite r t a v hd hc hn]
  exact ⟨rfl, rfl, rfl⟩

/-- Settles O43: a write sets its own pin of the latches. -/
theorem pinWritesSetOneLatch : Obligations.PinWritesSetOneLatch :=
  fun p _ b _ s => ⟨Pins.get_set_same s.pin b p, fun h => Pins.get_set_other s.pin b h, rfl, rfl, rfl⟩

/-! ### The laws of `PERMUTE` (R95) -/

/-- Where bit `j` of `PERMUTE` comes from, and, turned round again, where bit `j` goes. -/
def permuteBit (j : Nat) : Nat := if j = 7 then 7 else 6 - j

theorem permute_getLsbD_permuteBit (v : Byte) {j : Nat} (hj : j < 8) :
    (permute v).getLsbD j = v.getLsbD (permuteBit j) :=
  permute_getLsbD v hj

theorem permuteBit_lt {j : Nat} (hj : j < 8) : permuteBit j < 8 := by
  unfold permuteBit
  split <;> omega

theorem permuteBit_permuteBit {j : Nat} (hj : j < 8) : permuteBit (permuteBit j) = j := by
  interval_cases j <;> rfl

theorem permute_permute (v : Byte) : permute (permute v) = v :=
  BitVec.eq_of_getLsbD_eq fun j hj => by
    rw [permute_getLsbD_permuteBit _ hj, permute_getLsbD_permuteBit v (permuteBit_lt hj), permuteBit_permuteBit hj]

/-- The bits of `PERMUTE v` are those of `v`, counted in another order. -/
theorem permute_countP (v : Byte) :
    (List.range 8).countP (fun i => (permute v).getLsbD i) = (List.range 8).countP (fun i => v.getLsbD i) := by
  have hperm : ((List.range 8).map permuteBit).Perm (List.range 8) := by decide
  calc (List.range 8).countP (fun i => (permute v).getLsbD i)
      = (List.range 8).countP (fun i => v.getLsbD (permuteBit i)) :=
        List.countP_congr fun i hi => by rw [permute_getLsbD_permuteBit v (List.mem_range.1 hi)]
    _ = ((List.range 8).map permuteBit).countP (fun i => v.getLsbD i) := List.countP_map.symm
    _ = (List.range 8).countP (fun i => v.getLsbD i) := hperm.countP_eq _

/-- `PERMUTE` goes through whatever is done to two bytes bit by bit. -/
theorem permute_bitwise {op : Byte → Byte → Byte} {f : Bool → Bool → Bool}
    (h : ∀ x y j, (op x y).getLsbD j = f (x.getLsbD j) (y.getLsbD j)) (v w : Byte) :
    permute (op v w) = op (permute v) (permute w) :=
  BitVec.eq_of_getLsbD_eq fun j hj => by
    rw [h, permute_getLsbD _ hj, permute_getLsbD v hj, permute_getLsbD w hj, h]

/-- Settles O22: `PERMUTE` is its own inverse, hence a bijection; the fixed points are counted by running it. -/
theorem permuteIsAnInvolutionThatKeepsBits : Obligations.PermuteIsAnInvolutionThatKeepsBits := by
  refine ⟨permute_permute, fun w => ⟨permute w, permute_permute w, ?_⟩, permute_countP, by decide, by decide, by decide,
    by decide, by decide +kernel, fun v w => ⟨?_, ?_, ?_⟩⟩
  · rintro u rfl
    exact (permute_permute u).symm
  · exact permute_bitwise (fun _ _ _ => BitVec.getLsbD_or) v w
  · exact permute_bitwise (fun _ _ _ => BitVec.getLsbD_and) v w
  · exact permute_bitwise (fun _ _ _ => BitVec.getLsbD_xor) v w

end Sys2Proof.Machine
end

section
/-! PROOFS. The wire frames: every frame row is the register write of its own word, and the statements that say so. -/

namespace Sys2Proof.Machine

/-- A frame row is the register write of the two bytes of the word it is encoded with (log entry 11), by its plan and by
the expansion table. -/
theorem frameRow_of_encode {i : Instr} {s : State} {w : FrameWord} (h : encode s.params.addrs i = .frame16 w) :
    plan i s = sendFrames s [(frameAddress w, frameValue w)] ∧ expansion s i = [(frameAddress w, frameValue w)] := by
  cases i <;> cases h
  all_goals
    rw [frameAddress_word, frameValue_word]
    exact ⟨rfl, rfl⟩

theorem frameRow_of_word (s : State) (w : FrameWord) :
    plan (decodeFrame s.params.addrs w) s = sendFrames s [(frameAddress w, frameValue w)] ∧
    expansion s (decodeFrame s.params.addrs w) = [(frameAddress w, frameValue w)] :=
  frameRow_of_encode (decodeFrame_round_trip s.params.addrs w).2

/-- Settles O34: each of the fourteen plans sends one frame. -/
theorem frameRowsSendTheirFrame : Obligations.FrameRowsSendTheirFrame := by
  intro s hp hi
  have send : ∀ a v, complete (sendFrames s [(a, v)]) s = _ := fun a v => complete_sendFrame s a v hp hi
  exact ⟨fun v => ⟨send 1#8 v, send 2#8 v, send 3#8 v, send 4#8 v, send 5#8 v, send 6#8 v, send 7#8 v, send 8#8 v⟩,
    send _ _, fun _ => send _ _, fun _ => send _ _, fun _ => send _ _, fun _ => send _ _, send⟩

/-- Settles O35: the row a word belongs to has that word as its encoding (`decodeFrame_round_trip`), so it sends the
word's own bytes, as `WRREG` does. -/
theorem everyFrameWordIsTheRegisterWriteOfItsBytes : Obligations.EveryFrameWordIsTheRegisterWriteOfItsBytes := by
  intro s w _
  obtain ⟨hplan, -⟩ := frameRow_of_word s w
  refine ⟨_, rfl, ?_⟩
  rw [exec_eq_complete, hplan, exec_wrreg_eq_complete, toByte_byte, toByte_byte]

/-- Settles O38: no frame word is `INIT` or `VERSION`. -/
theorem framesBeforeInitAreRefused : Obligations.FramesBeforeInitAreRefused := by
  intro s w hp hi
  refine ⟨fun m i h => ?_, fun rest hport => ?_⟩
  · obtain rfl : decodeFrame m w = i := Except.ok.inj h
    obtain ⟨hinit, hversion⟩ := decodeFrame_ne m w
    exact (refused_before_init _ s hp hi hinit hversion).1
  · obtain ⟨hinit, hversion⟩ := decodeFrame_ne s.params.addrs w
    exact steps_refused_before_init hp hi hport rfl hinit hversion

end Sys2Proof.Machine
end

section
/-! PROOFS. What every instruction does and leaves unchanged: the events it appends, the fields it keeps, the directions
and idle levels, and the statements about all instructions. -/

namespace Sys2Proof.Machine

/-! ### The events an instruction appends (R16, R19) -/

theorem init_or_ne (i : Instr) : (∃ n, i = .init n) ∨ ∀ n, i ≠ .init n :=
  (em _).imp_right not_exists.1

/-- What an instruction that completes appends to the trace. -/
def instrEvents (s : State) : Instr → List Event
  | .init n => initEvents s.params n
  | i => registerWrites s.params.tSettle (expansion s i)

theorem instrEvents_of_ne_init (s : State) {i : Instr} (h : ∀ n, i ≠ .init n) :
    instrEvents s i = registerWrites s.params.tSettle (expansion s i) := by
  unfold instrEvents
  split
  next n => exact absurd rfl (h n)
  next => rfl

theorem exec_trace_eq {i : Instr} {s t : State} (h : exec i s = .next t) : t.trace = s.trace ++ instrEvents s i := by
  obtain ⟨-, ⟨n, rfl, rfl⟩ | ⟨rfl, rfl⟩ | ⟨h1, -, -, rfl⟩⟩ := exec_cases h
  · rfl
  · exact (List.append_nil s.trace).symm
  · rw [instrEvents_of_ne_init s h1]

theorem exec_trace_drop {i : Instr} {s t : State} (h : exec i s = .next t) :
    t.trace.drop s.trace.length = instrEvents s i := by
  rw [exec_trace_eq h, List.drop_left]

/-- The events depend on the parameters, and but for `INIT`'s on the count (R19). -/
theorem instrEvents_congr {i : Instr} {s s' : State} (hp : s.params = s'.params)
    (hd : (∀ n, i ≠ .init n) → s.digitCount = s'.digitCount) : instrEvents s i = instrEvents s' i := by
  rcases init_or_ne i with ⟨n, rfl⟩ | hne
  · rw [instrEvents, instrEvents, hp]
  · rw [instrEvents_of_ne_init s hne, instrEvents_of_ne_init s' hne, hp, expansion_congr i s s' hp (hd hne)]

theorem instrEvents_length (s : State) {i : Instr} (h : ∀ n, i ≠ .init n) :
    (instrEvents s i).length = 52 * (expansion s i).length := by
  rw [instrEvents_of_ne_init s h, registerWrites_length]

/-- Settles O39: 52 events to a register write, of which an instruction other than `INIT` has none, one or eight. -/
theorem everyCommandAddsItsNumberOfEvents : Obligations.EveryCommandAddsItsNumberOfEvents := by
  intro i s t h
  have hinit : ∀ n, (instrEvents s (.init n)).length = 680 := initEvents_length s.params
  rw [exec_trace_eq h, List.length_append]
  refine ⟨?_, ?_, ?_, ?_⟩
  · rcases init_or_ne i with ⟨n, rfl⟩ | hne
    · rw [hinit]
      omega
    · rw [instrEvents_length s hne]
      rcases expansion_length s i hne with hl | hl | ⟨hl, -⟩ <;> rw [hl] <;> omega
  · rintro rfl
    exact List.append_nil s.trace
  · rintro rfl
    rw [instrEvents_length s (i := .clear) fun _ => Instr.noConfusion]
    rfl
  · rintro n rfl
    rw [hinit]

/-- Settles O31: the events of `INIT` are its four pin events and the register writes of `initFrames`. -/
theorem initEventsByGroup : Obligations.InitEventsByGroup := by
  intro n s t h
  rw [exec_trace_drop h]
  exact ⟨initEvents_length s.params n, rfl, fun k f hf => initEvents_drop_take s.params n hf⟩

/-! ### What an instruction keeps (R10 to R18) -/

section exec
variable {i : Instr} {s t : State} (h : exec i s = .next t)
include h

theorem exec_params : t.params = s.params := by
  obtain ⟨-, as, -, rfl⟩ := exec_next.1 h
  exact performAll_params as s

theorem exec_port : t.port = s.port := by
  obtain ⟨-, as, -, rfl⟩ := exec_next.1 h
  exact performAll_port as s

theorem exec_pending : t.pending = s.pending := by
  obtain ⟨-, as, -, rfl⟩ := exec_next.1 h
  exact performAll_pending as s

theorem exec_of_ne_init (hne : ∀ n, i ≠ .init n) :
    t.digitCount = s.digitCount ∧ t.initialised = s.initialised ∧ t.dir = s.dir := by
  obtain ⟨-, ⟨n, rfl, -⟩ | ⟨-, rfl⟩ | ⟨-, -, -, rfl⟩⟩ := exec_cases h
  · exact absurd rfl (hne n)
  · exact ⟨rfl, rfl, rfl⟩
  · exact ⟨rfl, rfl, rfl⟩

end exec

/-- Settles O40: what a list of actions never writes, and what `exec_cases` shows `INIT` and `VERSION` to write. -/
theorem instructionsChangeOnlyTheirOwnState : Obligations.InstructionsChangeOnlyTheirOwnState := by
  refine fun i s t h => ⟨exec_params h, exec_port h, exec_pending h, exec_of_ne_init h,
    fun hne => exec_result_of_ne_version hne h, ?_, _, exec_trace_eq h⟩
  rintro rfl
  obtain ⟨hp, -⟩ := exec_next.1 h
  obtain rfl := Host.Outcome.next.inj ((exec_version hp).symm.trans h)
  exact ⟨rfl, rfl⟩

/-- Settles O52: `instrEvents_congr`, for two states that agree and for a state and the one its instruction leaves. -/
theorem eventsDependOnCountAndParametersOnly : Obligations.EventsDependOnCountAndParametersOnly := by
  refine ⟨fun i s s' t t' hp hd h h' => ?_, fun i s t u _ h h' => ?_⟩
  · rw [exec_trace_drop h, exec_trace_drop h', instrEvents_congr hp fun _ => hd]
  · rw [exec_trace_drop h, exec_trace_drop h']
    exact instrEvents_congr (exec_params h).symm fun hne => (exec_of_ne_init h hne).1.symm

/-! ### The digit count is read by two instructions only (R12) -/

/-- A list of actions never reads the count, whatever it stores there. -/
theorem performAll_setDigitCount (as : List Action) (s : State) (c : Option Int) :
    ∃ c', performAll as { s with digitCount := c } = { performAll as s with digitCount := c' } := by
  induction as generalizing s c with
  | nil => exact ⟨c, rfl⟩
  | cons a as ih =>
    obtain ⟨c', hc'⟩ : ∃ c', act a { s with digitCount := c } = { act a s with digitCount := c' } := by
      rcases a with (_ | _ | _) | (n | _ | _)
      case update.digitCount => exact ⟨some n, rfl⟩
      all_goals exact ⟨c, rfl⟩
    rw [performAll_cons, performAll_cons, hc']
    exact ih (act a s) c'

theorem plan_setDigitCount {i : Instr} (s : State) (c : Option Int) (hd : ∀ w v, i ≠ .setdigit w v)
    (hr : ∀ w v, i ≠ .setrow w v) : plan i { s with digitCount := c } = plan i s := by
  cases i
  case setdigit w v => exact absurd rfl (hd w v)
  case setrow w v => exact absurd rfl (hr w v)
  all_goals rfl

/-- Settles O53: the same list is performed, and performing it does not read the count. -/
theorem otherCommandsIgnoreDigitCount : Obligations.OtherCommandsIgnoreDigitCount := by
  intro i s t c hd hr h
  obtain ⟨hp, as, hplan, rfl⟩ := exec_next.1 h
  obtain ⟨c', hc'⟩ := performAll_setDigitCount as s c
  have hu : exec i { s with digitCount := c } = .next { performAll as s with digitCount := c' } :=
    exec_next.2 ⟨hp, as, (plan_setDigitCount s c hd hr).trans hplan, hc'.symm⟩
  exact ⟨_, hu, rfl, rfl, rfl, rfl, rfl⟩

/-! ### Directions and idle levels (R14, R152) -/

/-- Settles O42: the only directions an instruction leaves other than it found them are those of `INIT`, all outputs;
register writes hold no `OE`. -/
theorem onlyInitTurnsPinsToOutputs : Obligations.OnlyInitTurnsPinsToOutputs := by
  refine ⟨fun p q s => ⟨Pins.get_set_same s.dir .output p, Pins.get_set_other s.dir .output, rfl⟩,
    fun i s t h p => ⟨fun hout => ?_, fun hne => ⟨by rw [(exec_of_ne_init h hne).2.2], ?_⟩⟩⟩
  · rcases init_or_ne i with ⟨n, rfl⟩ | hne
    · obtain ⟨hp, -⟩ := exec_next.1 h
      obtain rfl := Host.Outcome.next.inj ((exec_init n s hp).symm.trans h)
      cases p <;> rfl
    · rwa [(exec_of_ne_init h hne).2.2]
  · rw [exec_trace_drop h, instrEvents_of_ne_init s hne, List.all_eq_true]
    exact fun e he => decide_eq_true (registerWrites_ne_oe _ _ p e he)

/-- Settles O51: `INIT` and a register write end with the clock low and `LOAD` high, and `VERSION` writes no pin. -/
theorem idleLevelsAreRestored : Obligations.IdleLevelsAreRestored := by
  refine ⟨fun i s t hc hl h => ?_, fun n s t h => ?_⟩
  · obtain ⟨-, ⟨n, -, rfl⟩ | ⟨-, rfl⟩ | ⟨-, -, -, rfl⟩⟩ := exec_cases h
    · exact ⟨rfl, rfl⟩
    · exact ⟨hc, hl⟩
    · exact pinAfter_registerWrites_idle s.pin _ _ hc hl
  · obtain ⟨hp, -⟩ := exec_next.1 h
    obtain rfl := Host.Outcome.next.inj ((exec_init n s hp).symm.trans h)
    exact ⟨rfl, rfl⟩

/-! ### When an instruction and a step go on (R120, R144) -/

/-- Settles O36: with a count, which the invariant gives an initialised block, every instruction has a plan. -/
theorem everyInstructionCompletesOnceInitialised : Obligations.EveryInstructionCompletesOnceInitialised := by
  intro i s hs hp hi
  obtain ⟨as, has⟩ := plan_idle ((coherent_iff_idle hp).1 hs) i (.inl hi)
  exact ⟨_, exec_next.2 ⟨hp, as, has, rfl⟩⟩

/-- What R144 refuses: the block is ready and not initialised, and what the host hands over next is an instruction other
than `INIT` and `VERSION`. -/
def HandedOverBeforeInit (s : State) : Prop :=
  s.pending = [] ∧ s.initialised = false ∧
    ∃ x rest i, s.port = x :: rest ∧ x.instr s.params.addrs = some i ∧ (∀ n, i ≠ .init n) ∧ i ≠ .version

theorem steps_refused_of_handedOver {s : State} (h : HandedOverBeforeInit s) :
    step s = .refused .notInitialised ∧ eventStep s = .refused .notInitialised := by
  obtain ⟨hp, hi, x, rest, i, hx, hinstr, h1, h2⟩ := h
  exact steps_refused_before_init hp hi hx hinstr h1 h2

/-- An item of the port that stands for no instruction is a power-on or a reserved word. -/
theorem issue_of_instr_none {x : PortItem} {s : State} (h : x.instr s.params.addrs = none) (hp : s.pending = []) :
    (∃ t, issue x s = .next t) ∧ ∃ t, issueEvents x s = .next t := by
  cases x with
  | powerOn => exact ⟨⟨_, powerOnReset_of_ready hp⟩, ⟨_, powerOnReset_of_ready hp⟩⟩
  | code c => exact ⟨⟨s, by simp only [issue, h]⟩, ⟨s, by simp only [issueEvents, h]⟩⟩
  | call i => cases h

theorem steps_next_of_not_handedOver {s : State} (hs : Coherent s) (h : ¬ HandedOverBeforeInit s) :
    (∃ t, step s = .next t) ∧ ∃ t, eventStep s = .next t := by
  cases hp : s.pending with
  | cons a as => exact ⟨⟨performNext s, by simp [step, hp]⟩, ⟨performNext s, by simp [eventStep, hp]⟩⟩
  | nil =>
    cases hx : s.port with
    | nil => exact ⟨⟨s, (steps_of_empty_port hp hx).1⟩, ⟨s, (steps_of_empty_port hp hx).2⟩⟩
    | cons x rest =>
      rw [step_of_ready hp hx, eventStep_of_ready hp hx]
      cases hinstr : x.instr s.params.addrs with
      | none => exact issue_of_instr_none (s := { s with port := rest }) hinstr hp
      | some i =>
        obtain ⟨hissue, hissueEvents⟩ := issue_instr (s := { s with port := rest }) hinstr
        have hgoes : s.initialised = true ∨ (∃ n, i = .init n) ∨ i = .version := by
          by_contra! ⟨hi, h1, h2⟩
          exact h ⟨hp, by simpa using hi, x, rest, i, hx, hinstr, h1, h2⟩
        obtain ⟨as, has⟩ := plan_idle (idle_setPort ((coherent_iff_idle hp).1 hs) rest) i hgoes
        rw [hissue, hissueEvents, exec_eq_complete, has]
        exact ⟨⟨_, complete_ok as _ hp⟩, ⟨_, if_pos ((ready_iff _).2 hp)⟩⟩

/-- Settles O44: `HandedOverBeforeInit` tells the steps that are refused from those that go on, at both levels. -/
theorem stepsStopOnlyBeforeInit : Obligations.StepsStopOnlyBeforeInit := by
  intro s hs f hf
  obtain ⟨hrefused, hnext⟩ : (HandedOverBeforeInit s → f s = .refused .notInitialised) ∧
      (¬ HandedOverBeforeInit s → ∃ t, f s = .next t) := by
    obtain rfl | rfl : f = step ∨ f = eventStep := by simpa using hf
    · exact ⟨fun h => (steps_refused_of_handedOver h).1, fun h => (steps_next_of_not_handedOver hs h).1⟩
    · exact ⟨fun h => (steps_refused_of_handedOver h).2, fun h => (steps_next_of_not_handedOver hs h).2⟩
  by_cases h : HandedOverBeforeInit s
  · have hi : s.initialised = false := h.2.1
    exact ⟨.inr ⟨hrefused h, hi⟩, fun _ => h, hrefused⟩
  · obtain ⟨t, ht⟩ := hnext h
    have hne : f s ≠ .refused .notInitialised := by simp [ht]
    exact ⟨.inl ⟨t, ht⟩, fun he => absurd he hne, fun he => absurd he h⟩

end Sys2Proof.Machine
end

section
/-! PROOFS. What the attached chip is sent: the frame trace an instruction makes, what the register image reads as after
it, the values the block's own commands send, and the statements of R45, R52, R62 and R145. -/

namespace Sys2Proof.Machine

/-! ### The frame trace (R62) -/

theorem frameTrace_exec {i : Instr} {s t : State} (hs : Idle s) (hi : s.initialised = true) (h : exec i s = .next t)
    (rx : BitVec 16) : frameTrace rx t.trace = frameTrace rx s.trace ++ latchesOf (expansion s i) := by
  obtain ⟨-, ⟨n, rfl, rfl⟩ | ⟨rfl, rfl⟩ | ⟨-, -, -, rfl⟩⟩ := exec_cases h
  · exact frameTrace_repeated_init hs hi rx n
  · exact (List.append_nil _).symm
  · exact frameTrace_registerWrites hs hi rx (expansion s i)

/-- Settles O45: the invariant is idleness here, so `frameTrace_exec` applies. -/
theorem frameTraceFollowsTheExpansionTable : Obligations.FrameTraceFollowsTheExpansionTable :=
  fun rx _ _ _ hs hp hi h => frameTrace_exec ((coherent_iff_idle hp).1 hs) hi h rx

/-! ### The register image (R45) -/

/-- The value the last of some frames writes at an address, if any of them does. -/
def lastWritten (fs : List (Byte × Byte)) (b : Byte) : Option Byte :=
  (fs.reverse.find? (fun f => f.1 = b)).map (·.2)

theorem lastWritten_singleton (a v b : Byte) : lastWritten [(a, v)] b = if b = a then some v else none := by
  by_cases h : b = a <;> simp [lastWritten, eq_comm, h]

theorem lastWritten_eq_none {fs : List (Byte × Byte)} {b : Byte} (h : ∀ f ∈ fs, b ≠ f.1) : lastWritten fs b = none := by
  have hnone : fs.reverse.find? (fun f => f.1 = b) = none :=
    List.find?_eq_none.2 fun f hf => by simpa using (h f (List.mem_reverse.1 hf)).symm
  rw [lastWritten, hnone]
  rfl

theorem lastWritten_clearFrames (b : Byte) :
    lastWritten clearFrames b = if 1 ≤ b.toNat ∧ b.toNat ≤ 8 then some 0#8 else none := by
  by_cases h : 1 ≤ b.toNat ∧ b.toNat ≤ 8
  · rw [if_pos h]
    rcases (digit_range_iff b).1 h with rfl | rfl | rfl | rfl | rfl | rfl | rfl | rfl <;> rfl
  · rw [if_neg h]
    refine lastWritten_eq_none fun f hf hb => h ?_
    rw [digit_range_iff, hb]
    simp only [clearFrames, List.mem_cons, List.not_mem_nil, or_false] at hf
    rcases hf with rfl | rfl | rfl | rfl | rfl | rfl | rfl | rfl <;> decide

/-- Good frames after some frame trace: the image reads as the last of them, or as before. -/
theorem read_imageOf_append_latchesOf (ls : List Latch) (fs : List (Byte × Byte)) (b : Byte) :
    (imageOf (ls ++ latchesOf fs)).read b.toNat = (lastWritten fs b).or ((imageOf ls).read b.toNat) := by
  rw [imageOf_append, read_latchesOf]
  rfl

/-- What an instruction does to the image of an initialised block. -/
theorem imageAt_exec {i : Instr} {s t : State} (hs : Idle s) (hi : s.initialised = true) (h : exec i s = .next t)
    (rx : BitVec 16) (b : Byte) : t.imageAt rx b = (lastWritten (expansion s i) b).or (s.imageAt rx b) := by
  rw [State.imageAt, State.image, frameTrace_exec hs hi h rx, read_imageOf_append_latchesOf]
  rfl

/-- The first `INIT` makes the image from nothing: its latch without data writes nothing. -/
theorem imageAt_first_init {n : Int} {s t : State} (hs : Idle s) (hi : s.initialised = false)
    (h : exec (.init n) s = .next t) (rx : BitVec 16) (b : Byte) :
    t.imageAt rx b = lastWritten (initFrames s.params.addrs (effectiveCount n)) b := by
  have himage := read_imageOf_append_latchesOf [] (initFrames s.params.addrs (effectiveCount n)) b
  rw [State.imageAt, State.image, exec_init_trace h, frameTrace_first_init hs hi rx n, imageOf_cons_of_not_good rfl]
  exact himage.trans Option.or_none

/-- Settles O46: none of the frames writes at the address. -/
theorem otherRegistersOfTheImageAreUnchanged : Obligations.OtherRegistersOfTheImageAreUnchanged := by
  intro rx i s t b hs hp hi h hb
  rw [imageAt_exec ((coherent_iff_idle hp).1 hs) hi h, lastWritten_eq_none hb, Option.none_or]

/-- Settles O32: the image is what the thirteen frames of `INIT` write. -/
theorem initMakesExactlyThirteenRegistersKnown : Obligations.InitMakesExactlyThirteenRegistersKnown := by
  intro rx n s t hs hp hi h a
  have hidle := (coherent_iff_idle hp).1 hs
  rw [imageAt_first_init hidle hi h rx a]
  exact find_initFrames (params_wf_addrs hidle.params_wf) _ a

section image
variable {s t : State} (hs : Idle s) (hi : s.initialised = true) (rx : BitVec 16) (b : Byte)
include hs hi

theorem imageAt_exec_singleton {i : Instr} {a v : Byte} (h : exec i s = .next t) (he : expansion s i = [(a, v)]) :
    t.imageAt rx b = if b = a then some v else s.imageAt rx b := by
  rw [imageAt_exec hs hi h, he, lastWritten_singleton]
  split <;> rfl

theorem imageAt_exec_digit {i : Instr} {w v d : Int} (h : exec i s = .next t)
    (he : expansion s i = digitFrames s.params.variant d w v) :
    t.imageAt rx b =
      if indexInRange w d = true ∧ b = digitAddress w then some (contentByte s.params.variant (toByte v))
      else s.imageAt rx b := by
  by_cases hw : indexInRange w d = true
  · rw [imageAt_exec_singleton hs hi rx b h (he.trans (if_pos hw))]
    simp only [hw, true_and]
  · rw [imageAt_exec hs hi h, he, digitFrames, if_neg hw, if_neg (fun e => hw e.1)]
    rfl

end image

/-- Settles O47: `imageAt_exec` for the expansion of each instruction. -/
theorem writtenRegistersReadAsWritten : Obligations.WrittenRegistersReadAsWritten := by
  intro rx s t b hs hp hi
  have hidle := (coherent_iff_idle hp).1 hs
  refine ⟨fun n h => ?_, fun a v h => imageAt_exec_singleton hidle hi rx b h rfl,
    fun f h => imageAt_exec_singleton hidle hi rx b h rfl, fun l h => imageAt_exec_singleton hidle hi rx b h rfl,
    fun f h => imageAt_exec_singleton hidle hi rx b h rfl,
    fun w v d hd h => imageAt_exec_digit hidle hi rx b h (by rw [expansion, hd, Option.getD_some]),
    fun w v d hd h => imageAt_exec_digit hidle hi rx b h (by rw [expansion, hd, Option.getD_some]),
    fun h => ?_, fun h => imageAt_exec hidle hi h rx b, fun w i hdec h => ?_⟩
  · have hfind := find_initFrames (params_wf_addrs hidle.params_wf) (effectiveCount n) b
    rw [imageAt_exec hidle hi h, expansion, lastWritten, hfind]
    split_ifs <;> rfl
  · rw [imageAt_exec hidle hi h, expansion, lastWritten_clearFrames]
    split <;> rfl
  · obtain rfl : decodeFrame s.params.addrs w = i := Except.ok.inj hdec
    exact imageAt_exec_singleton hidle hi rx b h (frameRow_of_word s w).2

/-- Settles O48: the laws of `Memory.write`, and `imageOf_wf` for the image of any frame trace. -/
theorem registerImageIsAWellFormedMap : Obligations.RegisterImageIsAWellFormedMap := by
  refine ⟨fun m a b v => ?_, fun m a v hm ha => Memory.wf_write m a v hm ha, fun rx s => imageOf_wf _, fun _ _ => rfl⟩
  split
  next h => rw [h, Memory.read_write_same]
  next h => exact Memory.read_write_other m v h

/-! ### Legal values (R52) -/

/-- A frame of the table of R52 that is not a raw one: a digit's or a configuration register's, the value within the
register's range. -/
def LegalFrame (m : AddrMap) (a v : Byte) : Prop :=
  (a = m.intensity → v.toNat ≤ 15) ∧
  (a = m.shutdown → v.toNat ≤ 1) ∧
  (a = m.displayTest → v.toNat ≤ 1) ∧
  (a = m.scanLimit → 3 ≤ v.toNat ∧ v.toNat ≤ 7) ∧
  (a = m.decodeMode → v = 0#8) ∧
  (isDigitAddr a = true ∨ a ∈ m.all)

theorem latchesOf_legal {m : AddrMap} {fs : List (Byte × Byte)} (h : ∀ f ∈ fs, LegalFrame m f.1 f.2) :
    ∀ l ∈ latchesOf fs, LegalFrame m l.address l.value := by
  intro l hl
  obtain ⟨f, hf, rfl⟩ := List.mem_map.1 hl
  exact h f hf

section legal
variable {m : AddrMap} (hm : m.wf = true)
include hm

theorem legalFrame_digit {a : Byte} (ha : isDigitAddr a = true) (v : Byte) : LegalFrame m a v := by
  obtain ⟨-, h1, h2, h3, h4, h5⟩ := (addrMap_wf_iff m).1 hm
  have hne : ∀ {b : Byte}, isDigitAddr b = false → a ≠ b := by
    rintro b hb rfl
    cases ha.symm.trans hb
  exact ⟨fun e => absurd e (hne h2), fun e => absurd e (hne h4), fun e => absurd e (hne h5), fun e => absurd e (hne h3),
    fun e => absurd e (hne h1), .inl ha⟩

theorem legalFrame_intensity {v : Byte} (hv : v.toNat ≤ 15) : LegalFrame m m.intensity v := by
  obtain ⟨⟨hdi, -, -, -, his, hih, hit, -⟩, -⟩ := (addrMap_wf_iff m).1 hm
  exact ⟨fun _ => hv, fun e => absurd e hih, fun e => absurd e hit, fun e => absurd e his, fun e => absurd e.symm hdi,
    .inr (by simp [AddrMap.all])⟩

theorem legalFrame_shutdown {v : Byte} (hv : v.toNat ≤ 1) : LegalFrame m m.shutdown v := by
  obtain ⟨⟨-, -, hdh, -, -, hih, -, hsh, -, hht⟩, -⟩ := (addrMap_wf_iff m).1 hm
  exact ⟨fun e => absurd e.symm hih, fun _ => hv, fun e => absurd e hht, fun e => absurd e.symm hsh,
    fun e => absurd e.symm hdh, .inr (by simp [AddrMap.all])⟩

theorem legalFrame_displayTest {v : Byte} (hv : v.toNat ≤ 1) : LegalFrame m m.displayTest v := by
  obtain ⟨⟨-, -, -, hdt, -, -, hit, -, hst, hht⟩, -⟩ := (addrMap_wf_iff m).1 hm
  exact ⟨fun e => absurd e.symm hit, fun e => absurd e.symm hht, fun _ => hv, fun e => absurd e.symm hst,
    fun e => absurd e.symm hdt, .inr (by simp [AddrMap.all])⟩

theorem legalFrame_scanLimit {v : Byte} (hv : 3 ≤ v.toNat ∧ v.toNat ≤ 7) : LegalFrame m m.scanLimit v := by
  obtain ⟨⟨-, hds, -, -, his, -, -, hsh, hst, -⟩, -⟩ := (addrMap_wf_iff m).1 hm
  exact ⟨fun e => absurd e.symm his, fun e => absurd e hsh, fun e => absurd e hst, fun _ => hv,
    fun e => absurd e.symm hds, .inr (by simp [AddrMap.all])⟩

theorem legalFrame_decodeMode : LegalFrame m m.decodeMode 0#8 := by
  obtain ⟨⟨hdi, hds, hdh, hdt, -⟩, -⟩ := (addrMap_wf_iff m).1 hm
  exact ⟨fun e => absurd e hdi, fun e => absurd e hdh, fun e => absurd e hdt, fun e => absurd e hds, fun _ => rfl,
    .inr (by simp [AddrMap.all])⟩

theorem clearFrames_legal : ∀ f ∈ clearFrames, LegalFrame m f.1 f.2 := by
  have hdigit : ∀ f ∈ clearFrames, isDigitAddr f.1 = true := by simp [clearFrames, isDigitAddr]
  exact fun f hf => legalFrame_digit hm (hdigit f hf) f.2

theorem initFrames_legal (n : Int) : ∀ f ∈ initFrames m (effectiveCount n), LegalFrame m f.1 f.2 := by
  intro f hf
  obtain ⟨-, h8⟩ := effectiveCount_range n
  have hscan := scanLimitByte_toNat h8
  simp only [initFrames, List.mem_append, List.mem_cons, List.not_mem_nil, or_false] at hf
  rcases hf with ((rfl | rfl | rfl | rfl) | hf) | rfl
  · exact legalFrame_displayTest hm (v := 0#8) (by decide)
  · exact legalFrame_decodeMode hm
  · exact legalFrame_scanLimit hm (v := scanLimitByte _) (by omega)
  · exact legalFrame_intensity hm (v := 15#8) (by decide)
  · exact clearFrames_legal hm f hf
  · exact legalFrame_shutdown hm (v := 0#8) (by decide)

theorem digitFrames_legal (x : Variant) {d : Int} (h8 : d ≤ 8) (w v : Int) :
    ∀ f ∈ digitFrames x d w v, LegalFrame m f.1 f.2 := by
  intro f hf
  by_cases hw : 0 ≤ w ∧ w ≤ d - 1
  · obtain rfl : f = (digitAddress w, contentByte x (toByte v)) := by simpa [digitFrames_in hw] using hf
    have hnum := digitAddress_toNat hw.1 (by omega)
    have haddr : isDigitAddr (digitAddress w) = true := (isDigitAddr_iff _).2 (by omega)
    exact legalFrame_digit hm haddr _
  · simp [digitFrames_out hw] at hf

end legal

theorem flagByte_le (f : Int) : (flagByte f).toNat ≤ 1 := by
  rw [flagByte_eq_ite]
  split <;> decide

theorem intensityByte_le (l : Int) : (intensityByte l).toNat ≤ 15 := by
  obtain ⟨hlow, -, hhigh⟩ := intensityByte_cases l
  rcases lt_or_ge l 1 with h | h
  · rw [hlow (by omega)]
    decide
  rcases le_or_gt l 16 with h' | h'
  · have := intensityByte_toNat_of_range h h'
    omega
  · rw [hhigh h']
    decide

/-- The frames of the block's own commands are legal: their values are made by the block, but for the content of a
digit, of which any value is legal. -/
theorem expansion_legal {i : Instr} {s : State} (hm : s.params.addrs.wf = true)
    (h8 : ∀ d, s.digitCount = some d → d ≤ 8)
    (hown : (∃ n, i = .init n) ∨ (∃ x, i = .enable x) ∨ (∃ l, i = .setint l) ∨ (∃ x, i = .test x) ∨
      (∃ w v, i = .setdigit w v) ∨ (∃ w v, i = .setrow w v) ∨ i = .clear ∨ i = .version) :
    ∀ f ∈ expansion s i, LegalFrame s.params.addrs f.1 f.2 := by
  have hcount : s.digitCount.getD 0 ≤ 8 := by
    cases hd : s.digitCount with
    | none => decide
    | some d => exact h8 d hd
  rcases hown with ⟨n, rfl⟩ | ⟨x, rfl⟩ | ⟨l, rfl⟩ | ⟨x, rfl⟩ | ⟨w, v, rfl⟩ | ⟨w, v, rfl⟩ | rfl | rfl
  · exact initFrames_legal hm n
  · exact List.forall_mem_singleton.2 (legalFrame_shutdown hm (flagByte_le x))
  · exact List.forall_mem_singleton.2 (legalFrame_intensity hm (intensityByte_le l))
  · exact List.forall_mem_singleton.2 (legalFrame_displayTest hm (flagByte_le x))
  · exact digitFrames_legal hm s.params.variant hcount w v
  · exact digitFrames_legal hm s.params.variant hcount w v
  · exact clearFrames_legal hm
  · exact nofun

theorem idle_digitCount_le {s : State} (h : Idle s) : ∀ d, s.digitCount = some d → d ≤ 8 := by
  intro d hd
  cases hi : s.initialised with
  | false =>
    obtain ⟨-, -, hnone, -⟩ := h.before_init hi
    cases hd.symm.trans hnone
  | true =>
    obtain ⟨-, -, -, e, he, -, h8⟩ := h.after_init hi
    cases hd.symm.trans he
    exact h8

theorem frameTrace_before_init {s : State} (h : Idle s) (hi : s.initialised = false) (rx : BitVec 16) :
    frameTrace rx s.trace = [] :=
  congrArg Receiver.frames (idle_before_init h hi rx)

/-- Settles O49: once initialised the frame trace gains the frames of the expansion; before, `INIT` alone completes with
frames, after its latch without data. -/
theorem ownCommandsSendOnlyLegalValues : Obligations.OwnCommandsSendOnlyLegalValues := by
  intro rx i s t hs hp h hown
  have hidle := (coherent_iff_idle hp).1 hs
  have hlegal := latchesOf_legal (expansion_legal (params_wf_addrs hidle.params_wf) (idle_digitCount_le hidle) hown)
  have hgood := latchesOf_good (expansion s i)
  cases hi : s.initialised with
  | true =>
    exact ⟨_, frameTrace_exec hidle hi h rx, fun l hl => ⟨.inl (hgood l hl), fun _ => hlegal l hl⟩⟩
  | false =>
    obtain ⟨-, ⟨n, rfl, rfl⟩ | ⟨rfl, rfl⟩ | ⟨-, -, hi', -⟩⟩ := exec_cases h
    · refine ⟨_, (frameTrace_first_init hidle hi rx n).trans
        (by rw [frameTrace_before_init hidle hi rx, List.nil_append]), fun l hl => ?_⟩
      rcases List.mem_cons.1 hl with rfl | hl
      · exact ⟨.inr ⟨rfl, rfl⟩, nofun⟩
      · exact ⟨.inl (hgood l hl), fun _ => hlegal l hl⟩
    · exact ⟨[], (List.append_nil _).symm, nofun⟩
    · cases hi.symm.trans hi'

end Sys2Proof.Machine
end

section
/-! PROOFS. The event level beside the command level: how a command is accepted and its events performed, and the
statements of R7 and R16 that say so. -/

namespace Sys2Proof.Machine

/-! ### Accepting a command (R16) -/

theorem accept_ok (as : List Action) {s : State} (hp : s.pending = []) : accept (.ok as) s = .next (settle as s) :=
  if_pos ((ready_iff s).2 hp)

theorem accept_next {p : Except Refusal (List Action)} {s t : State} (h : accept p s = .next t) :
    ∃ as, p = .ok as ∧ t = settle as s := by
  unfold accept at h
  split at h
  · cases p with
    | ok as => cases h; exact ⟨as, rfl, rfl⟩
    | error r => cases h
  · cases h

/-- A ready block refuses an instruction, at either level, exactly when the instruction has no plan. -/
theorem exec_refused_iff_accept {i : Instr} {s : State} {r : Refusal} (hp : s.pending = []) :
    exec i s = .refused r ↔ accept (plan i s) s = .refused r := by
  rw [exec_eq_complete]
  cases plan i s <;> simp [complete, accept, State.ready, hp]

/-- Settles O58: accepting a command, and going on after an event, is `settle`, with the updates of `settle_eq`
and the frame of `settle_spec`. -/
theorem pendingEventsArePerformedInOrder : Obligations.PendingEventsArePerformedInOrder := by
  refine ⟨fun i s t h => ?_, fun s e as hs => ?_⟩
  · obtain ⟨as, hplan, rfl⟩ := accept_next h
    obtain ⟨us, has, hus, heq⟩ := settle_eq as s
    obtain ⟨htrace, hpin, hdir, -, -, hhead⟩ := settle_spec as s
    exact ⟨us, hplan.trans (congrArg Except.ok has), hus, heq, htrace, hpin, hdir, hhead⟩
  · have hnext : eventStep s = .next (settle as (perform e s)) := by simp [eventStep, performNext, hs]
    obtain ⟨us, has, hus, heq⟩ := settle_eq as (perform e s)
    obtain ⟨htrace, hpin, hdir, -, -, hhead⟩ := settle_spec as (perform e s)
    exact ⟨_, us, hnext, has, hus, heq, htrace.trans (perform_trace e s), hpin, hdir, hhead⟩

/-! ### The two levels come to one state (R7) -/

theorem eventsOf_updates {us : List Action} (h : ∀ a ∈ us, ∃ u, a = .update u) : eventsOf us = [] :=
  List.filterMap_eq_nil_iff.2 fun a ha => by
    obtain ⟨u, rfl⟩ := h a ha
    rfl

/-- No event is done when a command is accepted: all of them pend. -/
theorem eventsOf_settle_pending (as : List Action) (s : State) : eventsOf (settle as s).pending = eventsOf as := by
  obtain ⟨us, has, hus, -⟩ := settle_eq as s
  conv_rhs => rw [has, eventsOf_append, eventsOf_updates hus, List.nil_append]

/-- A command the command level completes is accepted at the event level, and as many steps as it has events come to the
same state. -/
theorem eventRun_accept {i : Instr} {s t : State} (h : exec i s = .next t) :
    ∃ u, accept (plan i s) s = .next u ∧ eventRun (t.trace.length - s.trace.length) u = .next t := by
  obtain ⟨hp, as, hplan, rfl⟩ := exec_next.1 h
  obtain ⟨-, -, -, -, -, hhead⟩ := settle_spec as s
  have hcount : (eventsOf (settle as s).pending).length = (performAll as s).trace.length - s.trace.length := by
    rw [eventsOf_settle_pending, performAll_trace, List.length_append, Nat.add_sub_cancel_left]
  have hfinish : (settle as s).finish = performAll as s := by
    rw [settle_finish, performAll_setPending, ← hp, ← performAll_pending as s]
  refine ⟨settle as s, by rw [hplan, accept_ok as hp], ?_⟩
  rw [eventRun_finish _ _ hhead hcount, hfinish]

theorem eventRun_one_add {s u : State} (k : Nat) (h : eventStep s = .next u) : eventRun (1 + k) s = eventRun k u := by
  rw [Nat.add_comm, eventRun, h]

/-- Settles O57: the levels differ on an instruction only, which `eventRun_accept` runs to its end; a power-on and a
reserved word are one step each, without events. -/
theorem eventLevelComesToTheCommandLevelState : Obligations.EventLevelComesToTheCommandLevelState := by
  intro s hp
  cases hport : s.port with
  | nil =>
    obtain ⟨hstep, hevent⟩ := steps_of_empty_port hp hport
    refine ⟨fun t h => ?_, fun r => by rw [hstep, hevent]⟩
    cases hstep.symm.trans h
    rw [eventRun_one_add _ hevent, Nat.sub_self, eventRun]
  | cons x rest =>
    have hevent := eventStep_of_ready hp hport
    rw [step_of_ready hp hport, hevent]
    rcases issue_cases x { s with port := rest } with ⟨i, hi, hie⟩ | ⟨hi, hie⟩ | ⟨hi, hie⟩
    · rw [hi, hie]
      refine ⟨fun t h => ?_, fun r => exec_refused_iff_accept hp⟩
      obtain ⟨u, hu, hrun⟩ := eventRun_accept h
      exact (eventRun_one_add _ (hevent.trans (hie.trans hu))).trans hrun
    · have hreset := powerOnReset_of_ready (s := { s with port := rest }) hp
      rw [hi, hie]
      refine ⟨fun t h => ?_, fun r => Iff.rfl⟩
      cases hreset.symm.trans h
      rw [eventRun_one_add _ (hevent.trans (hie.trans hreset)), resetOf_trace, List.length_nil, Nat.zero_sub, eventRun]
    · rw [hi, hie]
      refine ⟨fun t h => ?_, fun r => Iff.rfl⟩
      cases h
      rw [eventRun_one_add _ (hevent.trans hie), Nat.sub_self, eventRun]

end Sys2Proof.Machine
end

section
/-! PROOFS. The two variants side by side: what a plan looks like with the levels of `DATA` and the value of `RESULT`
left out is the same in both, so twins stay twins, and the statement of R2 that says so. -/

namespace Sys2Proof.Machine

/-! ### Twins and single actions -/

/-- An action with what the variant decides left out: the level of a data write, and the value of `RESULT`. -/
def actionShape : Action → Action
  | .event e => .event (eventShape e)
  | .update (.result _) => .update (.result 0)
  | .update u => .update u

/-- Events of one shape are the same event, or two data writes. -/
theorem eventShape_cases {e e' : Event} (h : eventShape e' = eventShape e) :
    e' = e ∨ ∃ b b', e = .w .data b ∧ e' = .w .data b' := by
  rcases e with _ | ⟨_ | _ | _, b⟩ | _ <;> rcases e' with _ | ⟨_ | _ | _, b'⟩ | _ <;> simp_all [eventShape]

/-- Updates of one shape are the same update, or two of `RESULT`. -/
theorem updateShape_cases {u u' : Update} (h : actionShape (.update u') = actionShape (.update u)) :
    u' = u ∨ ∃ v v', u = .result v ∧ u' = .result v' := by
  cases u <;> cases u' <;> simp_all [actionShape]

section twins
variable {s s' : State} (h : Twins s s')
include h

theorem twins_perform {e e' : Event} (he : eventShape e' = eventShape e) : Twins (perform e s) (perform e' s') := by
  obtain ⟨hparams, hready, hcount, hinit, hdir, ⟨hclk, hload⟩, hresult, htrace, hport⟩ := h
  have htrace' : (s'.trace ++ [e']).map eventShape = (s.trace ++ [e]).map eventShape := by simp [htrace, he]
  rcases eventShape_cases he with rfl | ⟨b, b', rfl, rfl⟩
  · cases e' with
    | oe p =>
      have hdir' : s'.dir.set p .output = s.dir.set p .output := by rw [hdir]
      exact ⟨hparams, hready, hcount, hinit, hdir', ⟨hclk, hload⟩, hresult, htrace', hport⟩
    | w p b =>
      refine ⟨hparams, hready, hcount, hinit, hdir, ?_, hresult, htrace', hport⟩
      cases p <;> simp [perform, hclk, hload]
    | d k => exact ⟨hparams, hready, hcount, hinit, hdir, ⟨hclk, hload⟩, hresult, htrace', hport⟩
  · exact ⟨hparams, hready, hcount, hinit, hdir, ⟨hclk, hload⟩, hresult, htrace', hport⟩

theorem twins_applyUpdate {u u' : Update} (hu : actionShape (.update u') = actionShape (.update u)) :
    Twins (applyUpdate u s) (applyUpdate u' s') := by
  obtain ⟨hparams, hready, hcount, hinit, hdir, hpin, hresult, htrace, hport⟩ := h
  rcases updateShape_cases hu with rfl | ⟨v, v', rfl, rfl⟩
  · cases u' with
    | digitCount n => exact ⟨hparams, hready, rfl, hinit, hdir, hpin, hresult, htrace, hport⟩
    | initialised => exact ⟨hparams, hready, hcount, rfl, hdir, hpin, hresult, htrace, hport⟩
    | result v => exact ⟨hparams, hready, hcount, hinit, hdir, hpin, rfl, htrace, hport⟩
  · exact ⟨hparams, hready, hcount, hinit, hdir, hpin, rfl, htrace, hport⟩

theorem twins_act {a a' : Action} (ha : actionShape a' = actionShape a) : Twins (act a s) (act a' s') := by
  cases a with
  | event e =>
    cases a' with
    | event e' => exact twins_perform h (Action.event.inj ha)
    | update u' => cases u' <;> cases ha
  | update u =>
    cases a' with
    | event e' => cases u <;> cases ha
    | update u' => exact twins_applyUpdate h ha

theorem twins_setPort (port : List PortItem) : Twins { s with port := port } { s' with port := port } :=
  ⟨h.params, h.ready, h.digitCount, h.initialised, h.dir, h.pin, h.result, h.trace, rfl⟩

theorem twins_resetOf : Twins (State.resetOf s.params) (State.resetOf s'.params) :=
  ⟨h.params, ⟨rfl, rfl⟩, rfl, rfl, rfl, ⟨rfl, rfl⟩, rfl, rfl, rfl⟩

end twins

theorem twins_performAll {as as' : List Action} {s s' : State} (h : Twins s s')
    (hs : as'.map actionShape = as.map actionShape) : Twins (performAll as s) (performAll as' s') := by
  induction as generalizing as' s s' with
  | nil =>
    obtain rfl := List.map_eq_nil_iff.1 hs
    exact h
  | cons a as ih =>
    obtain ⟨a', as', rfl, ha, has⟩ := List.map_eq_cons_iff.1 hs
    rw [performAll_cons, performAll_cons]
    exact ih (twins_act h ha) has

/-! ### Plans in the two variants (R97) -/

/-- The same state with the other block's variant. -/
def State.withVariant (s : State) (x : Variant) : State := { s with params := { s.params with variant := x } }

/-- A plan reads the parameters, the count and `INITIALISED`, and nothing else. -/
theorem plan_congr (i : Instr) {s s' : State} (hp : s'.params = s.params) (hd : s'.digitCount = s.digitCount)
    (hi : s'.initialised = s.initialised) : plan i s' = plan i s := by
  cases s
  cases s'
  cases hp
  cases hd
  cases hi
  cases i <;> rfl

theorem map_actionShape_events (es : List Event) : (events es).map actionShape = events (es.map eventShape) := by
  simp [events, actionShape]

theorem sendFrames_withVariant (s : State) (x : Variant) (fs : List (Byte × Byte)) :
    sendFrames (s.withVariant x) fs = sendFrames s fs := rfl

/-- The frames of a digit-content command go to the same address in both variants, so they have one shape. -/
theorem planDigit_withVariant_shape (w v : Int) (s : State) (x : Variant) :
    (planDigit w v (s.withVariant x)).map (List.map actionShape) = (planDigit w v s).map (List.map actionShape) := by
  have hcount : (s.withVariant x).digitCount = s.digitCount := rfl
  unfold planDigit
  rw [hcount]
  cases s.digitCount with
  | none => rfl
  | some d =>
    simp only [sendFrames_withVariant]
    by_cases hw : 0 ≤ w ∧ w ≤ d - 1
    · rw [digitFrames_in hw, digitFrames_in hw]
      cases hi : s.initialised with
      | false => rw [sendFrames_error s _ hi, sendFrames_error s _ hi]
      | true =>
        rw [sendFrames_ok s _ hi, sendFrames_ok s _ hi]
        simp only [Except.map, map_actionShape_events]
        rfl
    · rw [digitFrames_out hw, digitFrames_out hw]

theorem plan_withVariant_shape (i : Instr) (s : State) (x : Variant) :
    (plan i (s.withVariant x)).map (List.map actionShape) = (plan i s).map (List.map actionShape) := by
  cases i
  case setdigit w v => exact planDigit_withVariant_shape w v s x
  case setrow w v => exact planDigit_withVariant_shape w v s x
  all_goals rfl

theorem plan_twins {s s' : State} (h : Twins s s') (i : Instr) :
    (plan i s').map (List.map actionShape) = (plan i s).map (List.map actionShape) := by
  have hplan : plan i s' = plan i (s.withVariant s'.params.variant) :=
    plan_congr i h.params h.digitCount h.initialised
  rw [hplan, plan_withVariant_shape]

/-- The register writes of a digit-content command in two variants: none, or one to the same address. -/
theorem registerWrites_digitFrames (t : Nat) (d w v : Int) (x y : Variant) :
    registerWrites t (digitFrames y d w v) = registerWrites t (digitFrames x d w v) ∨
    registerWrites t (digitFrames x d w v) = registerWrite t (digitAddress w) (contentByte x (toByte v)) ∧
      registerWrites t (digitFrames y d w v) = registerWrite t (digitAddress w) (contentByte y (toByte v)) := by
  by_cases hw : 0 ≤ w ∧ w ≤ d - 1
  · right
    simp [digitFrames_in hw]
  · left
    rw [digitFrames_out hw, digitFrames_out hw]

/-- The events of an instruction in the two variants: the same, or one digit's frame through each `P`. -/
theorem instrEvents_withVariant (i : Instr) (s : State) (x : Variant) :
    instrEvents (s.withVariant x) i = instrEvents s i ∨
    ∃ w v, (i = .setdigit w v ∨ i = .setrow w v) ∧
      instrEvents s i =
        registerWrite s.params.tSettle (digitAddress w) (contentByte s.params.variant (toByte v)) ∧
      instrEvents (s.withVariant x) i =
        registerWrite s.params.tSettle (digitAddress w) (contentByte x (toByte v)) := by
  have digit := fun w v =>
    registerWrites_digitFrames s.params.tSettle (s.digitCount.getD 0) w v s.params.variant x
  cases i
  case setdigit w v => exact (digit w v).imp_right fun h => ⟨w, v, .inl rfl, h⟩
  case setrow w v => exact (digit w v).imp_right fun h => ⟨w, v, .inr rfl, h⟩
  all_goals exact .inl rfl

/-! ### Twins step by step (R2) -/

/-- Two outcomes that twins may have: both go on, to twins, or both are refused alike. -/
inductive TwinOutcomes : Host.Outcome State Fault Refusal → Host.Outcome State Fault Refusal → Prop where
  | next {t t' : State} (h : Twins t t') : TwinOutcomes (.next t) (.next t')
  | refused (r : Refusal) : TwinOutcomes (.refused r) (.refused r)

theorem TwinOutcomes.of_next {o o' : Host.Outcome State Fault Refusal} (h : TwinOutcomes o o') {t : State}
    (ht : o = .next t) : ∃ t', o' = .next t' ∧ Twins t t' := by
  cases h with
  | next h => cases ht; exact ⟨_, rfl, h⟩
  | refused r => cases ht

theorem TwinOutcomes.of_refused {o o' : Host.Outcome State Fault Refusal} (h : TwinOutcomes o o') {r : Refusal}
    (hr : o = .refused r) : o' = .refused r := by
  cases h with
  | next h => cases hr
  | refused r => exact hr

theorem exec_twins {s s' : State} (h : Twins s s') (i : Instr) : TwinOutcomes (exec i s) (exec i s') := by
  obtain ⟨hp, hp'⟩ := h.ready
  have hshape := plan_twins h i
  rw [exec_eq_complete, exec_eq_complete]
  cases hplan : plan i s with
  | error r =>
    cases hplan' : plan i s' with
    | error r' =>
      rw [hplan, hplan'] at hshape
      cases hshape
      rw [complete_error r s hp, complete_error r s' hp']
      exact .refused r
    | ok as' => rw [hplan, hplan'] at hshape; cases hshape
  | ok as =>
    cases hplan' : plan i s' with
    | error r' => rw [hplan, hplan'] at hshape; cases hshape
    | ok as' =>
      rw [hplan, hplan'] at hshape
      rw [complete_ok as s hp, complete_ok as' s' hp']
      exact .next (twins_performAll h (Except.ok.inj hshape))

theorem issue_twins {s s' : State} (h : Twins s s') (x : PortItem) : TwinOutcomes (issue x s) (issue x s') := by
  obtain ⟨hp, hp'⟩ := h.ready
  have haddrs : s'.params.addrs = s.params.addrs := by rw [h.params]
  cases x with
  | powerOn =>
    rw [issue, issue, powerOnReset_of_ready hp, powerOnReset_of_ready hp', h.port]
    exact .next (twins_setPort (twins_resetOf h) s.port)
  | call i => exact exec_twins h i
  | code c =>
    cases hc : decode s.params.addrs c with
    | error r =>
      rw [(issue_code_of_error hc).1, (issue_code_of_error (haddrs ▸ hc)).1]
      exact .next h
    | ok i =>
      have hi : (PortItem.code c).instr s.params.addrs = some i := by rw [PortItem.instr, hc]; rfl
      rw [(issue_instr hi).1, (issue_instr (haddrs ▸ hi)).1]
      exact exec_twins h i

theorem step_twins {s s' : State} (h : Twins s s') : TwinOutcomes (step s) (step s') := by
  obtain ⟨hp, hp'⟩ := h.ready
  cases hport : s.port with
  | nil =>
    rw [(steps_of_empty_port hp hport).1, (steps_of_empty_port hp' (h.port.trans hport)).1]
    exact .next h
  | cons x rest =>
    rw [step_of_ready hp hport, step_of_ready hp' (h.port.trans hport)]
    exact issue_twins (twins_setPort h rest) x

/-- Settles O54: plans of one shape take twins to twins, and a step runs a plan or none. -/
theorem variantsDifferInDataLevelsOnly : Obligations.VariantsDifferInDataLevelsOnly := by
  intro s s' h
  refine ⟨fun i => ⟨fun t ht => ?_, fun r => (exec_twins h i).of_refused⟩, fun t => (step_twins h).of_next,
    fun r => (step_twins h).of_refused⟩
  obtain ⟨t', ht', htwins⟩ := (exec_twins h i).of_next ht
  have hevents : instrEvents s' i = instrEvents (s.withVariant s'.params.variant) i :=
    instrEvents_congr h.params fun _ => h.digitCount
  refine ⟨t', ht', htwins, _, _, exec_trace_eq ht, exec_trace_eq ht', ?_⟩
  rw [hevents]
  exact instrEvents_withVariant i s s'.params.variant

end Sys2Proof.Machine
end
